-- ==== Sys2Proof/Word.lean ====
section
/-! DEFINITION. The word types of the engine: the byte (R20, R40), the index of a register (R20) and text as the host
reads and prints it (R202, R209). Plain names only; arithmetic on them stands in Machine/Operands.lean. -/

namespace Sys2Proof

/-- A byte: a memory cell, a register's contents or an operand byte (R20, R40), bit 0 least significant (R8). -/
abbrev Byte := BitVec 8

/-- The index of a register that exists: 0 to 7 (R20). -/
abbrev RegIdx := Fin 8

/-- Text of the host's side: image lines, output lines, assembly. -/
abbrev Text := List Char

end Sys2Proof
end

