-- ==== Sys2Proof/Config.lean ====
section
/-! DEFINITION. What the implementation fixes (the parameters of R7) and the values the spec leaves to the host and gives no
number for (R209, R210; I16 of 93_implementation_defined.md): those are opaque, so nothing can be proved of their value. -/

namespace Sys2Proof

/-- The stack pointer is register 7, `SP_INDEX` of R7 (R21, conflict C7). -/
abbrev Config.spIndex : RegIdx := 7

/-- The reset value of SP, `SP_RESET` of R7. -/
abbrev Config.spReset : Byte := 0xF4

/-- The reset value of pc, `PC_RESET` of R7. -/
abbrev Config.pcReset : Nat := 0

/-- The reset value of R0 to R6. DESIGN CHOICE (the spec's decision D3, log 2; unsafe). -/
abbrev Config.regReset : Byte := 0x00

/-- The byte of memory no write and no image has reached (R55). -/
abbrev Config.erased : Byte := 0x00

/-- The host's exit value for a fault of this code, pc and value, less 1: R209 says only that it is not zero.
A free value (log 15; safe). -/
opaque Config.faultExit (code pc : Nat) (value : Int) : Nat

/-- The host's exit value for a load error, which R203 says of FileNotFound only to be non-zero. A free value (log 15; safe). -/
opaque Config.loadExit (error : Nat) : Nat

end Sys2Proof
end

