-- ==== Sys2Proof/Syntax.lean ====
section
/-! DEFINITION. The instructions of the engine: one constructor per row of spec/opcode_table.json (R6, R66). -/

namespace Sys2Proof

/-- An instruction with its operand bytes as the encoding holds them (R63). A register operand is the WHOLE operand byte
(R64): a byte of 8 to 255 is an operand like another here, and the instruction raises OutOfBounds when it runs. -/
inductive Instr where
  /-- `HLT`: stop the run (R160). -/
  | hlt
  /-- `LDI r,imm`: load an immediate (R120). -/
  | ldi (r imm : Byte)
  /-- `PRN r`: output a register (R121). -/
  | prn (r : Byte)
  /-- `PUSH r` (R131). -/
  | push (r : Byte)
  /-- `POP r` (R132). -/
  | pop (r : Byte)
  /-- `CALL r`: call the subroutine whose address is in a register (R140). -/
  | call (r : Byte)
  /-- `RET`: return from a subroutine (R141). -/
  | ret
  /-- `JMP r`: jump to the address in a register (R150). -/
  | jmp (r : Byte)
  /-- `JEQ r`: jump if equal (R151). -/
  | jeq (r : Byte)
  /-- `JNE r`: jump if not equal (R152). -/
  | jne (r : Byte)
  /-- `ADD a,b` (R101). -/
  | add (a b : Byte)
  /-- `SUB a,b` (R102). -/
  | sub (a b : Byte)
  /-- `MUL a,b` (R103). -/
  | mul (a b : Byte)
  /-- `DIV a,b` (R104). -/
  | div (a b : Byte)
  /-- `CMP a,b` (R105). -/
  | cmp (a b : Byte)
  deriving DecidableEq, Repr

/-- The four instruction formats of R63. -/
inductive Format where
  /-- opcode alone -/
  | z
  /-- opcode, register -/
  | r
  /-- opcode, register, register -/
  | rr
  /-- opcode, register, immediate -/
  | ri
  deriving DecidableEq, Repr

end Sys2Proof
end

