-- ==== Sys2Proof/WellFormed.lean ====
section
/-! DEFINITION. Which instructions are well-formed: every register operand names a register (R64). An instruction that is not
can still be encoded, fetched and run: it raises OutOfBounds (R24, R171). -/

namespace Sys2Proof

/-- The operand byte names a register (R64). -/
def namesReg (r : Byte) : Bool := decide (r.toNat < 8)

/-- Every register operand of the instruction names a register. LDI's immediate is any byte (R65). -/
def Instr.wellFormed : Instr → Bool
  | .hlt => true
  | .ldi r _ => namesReg r
  | .prn r => namesReg r
  | .push r => namesReg r
  | .pop r => namesReg r
  | .call r => namesReg r
  | .ret => true
  | .jmp r => namesReg r
  | .jeq r => namesReg r
  | .jne r => namesReg r
  | .add a b => namesReg a && namesReg b
  | .sub a b => namesReg a && namesReg b
  | .mul a b => namesReg a && namesReg b
  | .div a b => namesReg a && namesReg b
  | .cmp a b => namesReg a && namesReg b

end Sys2Proof
end

