-- ==== Sys2Proof/Decode.lean ====
section
/-! DEFINITION. The instruction encoding (30_encoding.md): the opcode map, the fields of the opcode byte, the decoder (total,
rejecting by name) and the encoder. -/

namespace Sys2Proof

/-! The opcode map of R66. PRESUMED (the spec's decision D1, log 1; unsafe): the source gives no opcode value. -/

abbrev Opcode.hlt : Byte := 0x01
abbrev Opcode.ret : Byte := 0x11
abbrev Opcode.push : Byte := 0x45
abbrev Opcode.pop : Byte := 0x46
abbrev Opcode.prn : Byte := 0x47
abbrev Opcode.call : Byte := 0x50
abbrev Opcode.jmp : Byte := 0x54
abbrev Opcode.jeq : Byte := 0x55
abbrev Opcode.jne : Byte := 0x56
abbrev Opcode.ldi : Byte := 0x82
abbrev Opcode.add : Byte := 0xA0
abbrev Opcode.sub : Byte := 0xA1
abbrev Opcode.mul : Byte := 0xA2
abbrev Opcode.div : Byte := 0xA3
abbrev Opcode.cmp : Byte := 0xA7

/-- The ten handler opcodes of R62 and R66. -/
def Opcode.handlers : List Byte :=
  [Opcode.hlt, Opcode.ldi, Opcode.prn, Opcode.push, Opcode.pop, Opcode.call, Opcode.ret, Opcode.jmp, Opcode.jeq, Opcode.jne]

/-- The five ALU opcodes of R62, R66 and R100. -/
def Opcode.alus : List Byte := [Opcode.add, Opcode.sub, Opcode.mul, Opcode.div, Opcode.cmp]

/-- `operand_count = ir >> 6`, bits 7..6 of the opcode (R62). -/
def operandCount (ir : Byte) : Nat := (ir >>> 6).toNat

/-- `is_alu = (ir >> 5) & 1`, bit 5 of the opcode (R62). -/
def isAlu (ir : Byte) : Bool := (ir >>> 5) &&& 1 == 1

/-- `sets_pc = (ir >> 4) & 1`, bit 4 of the opcode (R62). -/
def setsPc (ir : Byte) : Bool := (ir >>> 4) &&& 1 == 1

/-- Why a byte is no instruction (R68), with the byte. -/
inductive DecodeError where
  /-- bit 5 is 0 and no handler has this opcode (R173) -/
  | unknownOpcode (ir : Byte)
  /-- bit 5 is 1 and no ALU operation has this opcode (R174) -/
  | unsupportedOperation (ir : Byte)
  deriving DecidableEq, Repr

/-- The ALU operation whose opcode equals the whole byte, with its two register operands (R62, R100). -/
def decodeAlu (ir a b : Byte) : Option Instr :=
  if ir = Opcode.add then some (.add a b)
  else if ir = Opcode.sub then some (.sub a b)
  else if ir = Opcode.mul then some (.mul a b)
  else if ir = Opcode.div then some (.div a b)
  else if ir = Opcode.cmp then some (.cmp a b)
  else none

/-- The handler whose opcode equals the whole byte, with the operand bytes it uses (R62, R63, R86). -/
def decodeHandler (ir op1 op2 : Byte) : Option Instr :=
  if ir = Opcode.hlt then some .hlt
  else if ir = Opcode.ldi then some (.ldi op1 op2)
  else if ir = Opcode.prn then some (.prn op1)
  else if ir = Opcode.push then some (.push op1)
  else if ir = Opcode.pop then some (.pop op1)
  else if ir = Opcode.call then some (.call op1)
  else if ir = Opcode.ret then some .ret
  else if ir = Opcode.jmp then some (.jmp op1)
  else if ir = Opcode.jeq then some (.jeq op1)
  else if ir = Opcode.jne then some (.jne op1)
  else none

/-- Decoding the three fetched bytes (R62, R82): bit 5 chooses the ALU path or the handler path, and each rejects under its
own name (R68, conflicts C3 and C12). -/
def decode (ir op1 op2 : Byte) : Except DecodeError Instr :=
  if isAlu ir then
    match decodeAlu ir op1 op2 with
    | some i => .ok i
    | none => .error (.unsupportedOperation ir)
  else
    match decodeHandler ir op1 op2 with
    | some i => .ok i
    | none => .error (.unknownOpcode ir)

/-- Decoding from a list of bytes, first byte first; a byte the list does not have is the erased byte of memory (R55). -/
def decodeWindow (bs : List Byte) : Except DecodeError Instr :=
  decode (bs.getD 0 Config.erased) (bs.getD 1 Config.erased) (bs.getD 2 Config.erased)

/-- The bytes of a table word, lowest address first: byte `k` is bits `8k+7..8k`, and the bits from `nbits` up are 0. Three
bytes, the longest instruction (R60). -/
def tableBytes (nbits w : Nat) : List Byte :=
  let v := w % 2 ^ nbits
  [BitVec.ofNat 8 v, BitVec.ofNat 8 (v / 2 ^ 8), BitVec.ofNat 8 (v / 2 ^ 16)]

/-- What the decoder reads from a word numbered as spec/opcode_table.json numbers it. -/
def decodeTableWord (nbits w : Nat) : Option Instr :=
  match decodeWindow (tableBytes nbits w) with
  | .ok i => some i
  | .error _ => none

/-- The opcode of each instruction (R66). -/
def Instr.opcode : Instr → Byte
  | .hlt => Opcode.hlt
  | .ldi _ _ => Opcode.ldi
  | .prn _ => Opcode.prn
  | .push _ => Opcode.push
  | .pop _ => Opcode.pop
  | .call _ => Opcode.call
  | .ret => Opcode.ret
  | .jmp _ => Opcode.jmp
  | .jeq _ => Opcode.jeq
  | .jne _ => Opcode.jne
  | .add _ _ => Opcode.add
  | .sub _ _ => Opcode.sub
  | .mul _ _ => Opcode.mul
  | .div _ _ => Opcode.div
  | .cmp _ _ => Opcode.cmp

/-- The format of each instruction (R63). -/
def Instr.format : Instr → Format
  | .hlt | .ret => .z
  | .prn _ | .push _ | .pop _ | .call _ | .jmp _ | .jeq _ | .jne _ => .r
  | .add _ _ | .sub _ _ | .mul _ _ | .div _ _ | .cmp _ _ => .rr
  | .ldi _ _ => .ri

/-- The number of operand bytes of a format (the table of R63). -/
def Format.operands : Format → Nat
  | .z => 0
  | .r => 1
  | .rr => 2
  | .ri => 2

/-- The operand bytes of each instruction, in the order of R63. -/
def Instr.operandBytes : Instr → List Byte
  | .hlt => []
  | .ldi r imm => [r, imm]
  | .prn r => [r]
  | .push r => [r]
  | .pop r => [r]
  | .call r => [r]
  | .ret => []
  | .jmp r => [r]
  | .jeq r => [r]
  | .jne r => [r]
  | .add a b => [a, b]
  | .sub a b => [a, b]
  | .mul a b => [a, b]
  | .div a b => [a, b]
  | .cmp a b => [a, b]

/-- The bytes of an instruction, first byte at the lowest address (R60, R63). -/
def encode (i : Instr) : List Byte := i.opcode :: i.operandBytes

end Sys2Proof
end

