-- ==== Sys2Proof/Machine/State.lean ====
section
/-! DEFINITION. The state of the engine (10_state.md, 20_memory.md R40): plain data, and the state after reset (R200). -/

namespace Sys2Proof
namespace Machine

/-- Which kind of address an OutOfBounds is about (R170). -/
inductive Space where
  /-- an address of memory, or a value of the stack pointer -/
  | memory
  /-- a register index -/
  | register
  deriving DecidableEq, Repr

/-- The four kinds of fault (R170). -/
inductive FaultKind where
  /-- raised by the fetch, by a register operand of 8 to 255, and by PUSH, POP, CALL and RET at the ends of memory (R171) -/
  | outOfBounds
  /-- raised by DIV (R172) -/
  | divisionByZero
  /-- raised by decode for a byte with bit 5 = 0 (R173) -/
  | unknownOpcode
  /-- raised by the ALU dispatch for a byte with bit 5 = 1 (R174) -/
  | unsupportedOperation
  deriving DecidableEq, Repr

/-- The info record of a fault (R170): the kind's code, the address of the faulting instruction, the value recorded (an
integer: a stack pointer that would leave memory is recorded as -1 or 256), and the space for OutOfBounds only. -/
structure FaultInfo where
  code : Nat
  pc : Nat
  value : Int
  space : Option Space
  deriving DecidableEq, Repr

/-- A fault as it is raised: its kind and its info (R170). -/
structure FaultCause where
  kind : FaultKind
  info : FaultInfo
  deriving DecidableEq, Repr

/-- The run status (R31, conflict C4). -/
inductive Status where
  | running
  /-- a normal HLT (R160) -/
  | halted
  /-- a fault (R178) -/
  | error (kind : FaultKind) (info : FaultInfo)
  deriving DecidableEq, Repr

/-- The flags register FL: Equal, Greater-than, Less-than (R27). -/
structure Flags where
  e : Bool
  g : Bool
  l : Bool
  deriving DecidableEq, Repr

/-- Memory as address and byte pairs, in the canonical form `Memory.wf`; an address not listed reads as `Config.erased` (R55). -/
abbrev Memory := List Host.Cell

/-- The pairs lie at rising addresses from `lo` up, below the end of memory, and none holds the erased byte. -/
def Memory.wfFrom : Nat → Memory → Bool
  | _, [] => true
  | lo, (a, v) :: rest => decide (lo ≤ a) && decide (a < 256) && decide (v ≠ Config.erased) && Memory.wfFrom (a + 1) rest

/-- The canonical form of memory: addresses strictly rising and below 256, no pair equal to what an unlisted address reads as. -/
def Memory.wf (m : Memory) : Bool := Memory.wfFrom 0 m

/-- The whole state of the engine between steps (R33, and the summary of 10_state.md section 8). IR, op1 and op2 are transient
and no part of it (R30). -/
structure State where
  /-- the 256 bytes of memory (R40) -/
  mem : Memory
  /-- R0 to R7; R7 is SP (R20, R21) -/
  regs : Vector Byte 8
  /-- the program counter, a natural number (R25, R26) -/
  pc : Nat
  /-- FL (R27) -/
  flags : Flags
  /-- the run status (R31) -/
  status : Status
  /-- the output stream, oldest byte first (R32) -/
  out : List Byte
  deriving DecidableEq, Repr

/-- Why a step answers no state. A fault of the ENGINE is no such reason: its entry is a next state (R178, log 4). -/
inductive Fault where
  /-- Raised by `step` alone, in a state whose status is Halted or Error: "the engine takes no step" (R80), a run that has ended
  has no more steps (R210). Safe: the model stops where the engine has stopped (log 5). -/
  | runEnded
  deriving DecidableEq, Repr

/-- Why an instruction has no meaning. Every instruction of the table has one, so no arm of `exec` answers this. -/
inductive Refusal where
  /-- Raised by no arm of `exec`: kept for an instruction without a meaning. Safe. -/
  | notModelled (mnemonic : String)
  deriving DecidableEq, Repr

/-- The state after reset and before an image is loaded (R200): memory 0x00, SP 0xF4, pc 0, Running, no output (stated); R0 to R6
and FL at 0. DESIGN CHOICE (the spec's decisions D3 and D4, logs 2 and 3; unsafe). -/
def State.reset : State where
  mem := []
  regs := #v[Config.regReset, Config.regReset, Config.regReset, Config.regReset, Config.regReset, Config.regReset,
    Config.regReset, Config.spReset]
  pc := Config.pcReset
  flags := { e := false, g := false, l := false }
  status := .running
  out := []

end Machine
end Sys2Proof
end

