-- ==== Sys2Proof/Machine/Ops.lean ====
section
/-! DEFINITION. The named operations over the state: raising and taking a fault, memory, registers, the stack pointer, the PC
policy and the completion of an instruction. Every meaning is written over these. -/

namespace Sys2Proof
namespace Machine

/-! Raising a fault (R170): the cause, with the code and the value the table of R170 names. -/

/-- The code of a kind (R170; the spec's decision D13, log 9). -/
def FaultKind.code : FaultKind → Nat
  | .outOfBounds => 1
  | .divisionByZero => 2
  | .unknownOpcode => 3
  | .unsupportedOperation => 4

/-- OutOfBounds of an address, a stack-pointer value or a register index (R171). -/
def outOfBounds (pc0 : Nat) (space : Space) (value : Int) : FaultCause :=
  { kind := .outOfBounds, info := { code := FaultKind.outOfBounds.code, pc := pc0, value := value, space := some space } }

/-- DivisionByZero records the divisor's register index (R170, R172). -/
def divisionByZero (pc0 : Nat) (b : Byte) : FaultCause :=
  { kind := .divisionByZero, info := { code := FaultKind.divisionByZero.code, pc := pc0, value := b.toNat, space := none } }

/-- UnknownOpcode records the opcode byte (R173). -/
def unknownOpcode (pc0 : Nat) (ir : Byte) : FaultCause :=
  { kind := .unknownOpcode, info := { code := FaultKind.unknownOpcode.code, pc := pc0, value := ir.toNat, space := none } }

/-- UnsupportedOperation records the opcode byte (R174). -/
def unsupportedOperation (pc0 : Nat) (ir : Byte) : FaultCause :=
  { kind := .unsupportedOperation,
    info := { code := FaultKind.unsupportedOperation.code, pc := pc0, value := ir.toNat, space := none } }

/-- TAKING A FAULT (R178, R87): the status becomes `Error(kind, info)` and nothing else changes: memory, registers, pc, FL and
output keep the values of the start of the step. There is no handler, vector, mode or mask, and no return from a fault (R179),
so nothing stands beside this operation. -/
def takeFault (c : FaultCause) (s : State) : State := { s with status := .error c.kind c.info }

/-! Memory (20_memory.md). -/

/-- The state with this memory. -/
def State.setMem (s : State) (m : Memory) : State := { s with mem := m }

/-- The byte of memory at an address (R40); an address not listed holds the erased byte (R55). -/
def Memory.read : Memory → Nat → Byte
  | [], _ => Config.erased
  | (b, w) :: rest, a => if a = b then w else Memory.read rest a

/-- Memory with one byte written, in canonical form: writing the erased byte takes the pair away. -/
def Memory.write : Memory → Nat → Byte → Memory
  | [], a, v => if v = Config.erased then [] else [(a, v)]
  | (b, w) :: rest, a, v =>
    if a < b then (if v = Config.erased then (b, w) :: rest else (a, v) :: (b, w) :: rest)
    else if a = b then (if v = Config.erased then rest else (a, v) :: rest)
    else (b, w) :: Memory.write rest a v

/-- `MemRead(a, 1)` (R41): the address is an integer; outside 0..255 it raises OutOfBounds and reaches no memory (R49). -/
def memRead (pc0 : Nat) (a : Int) (s : State) : Except FaultCause Byte :=
  if 0 ≤ a ∧ a ≤ 255 then .ok (s.mem.read a.toNat) else .error (outOfBounds pc0 .memory a)

/-- `MemWrite(a, 1, v)` (R42). -/
def memWrite (pc0 : Nat) (a : Int) (v : Byte) (s : State) : Except FaultCause State :=
  if 0 ≤ a ∧ a ≤ 255 then .ok (s.setMem (s.mem.write a.toNat v)) else .error (outOfBounds pc0 .memory a)

/-! Registers, pc, FL, output and status (10_state.md). -/

/-- `x[i]` (R24). No register is hardwired (R23). -/
def State.reg (s : State) (i : RegIdx) : Byte := s.regs[i]

/-- `x[i] <- v` (R24). -/
def State.setReg (s : State) (i : RegIdx) (v : Byte) : State := { s with regs := s.regs.set i v }

/-- `SP`, another name for `x[7]` (R10, R21). -/
def State.sp (s : State) : Byte := s.reg Config.spIndex

/-- `pc <- t` (R25). -/
def State.setPc (s : State) (t : Nat) : State := { s with pc := t }

/-- `fl <- {E, G, L}`: all three flags at once (R28). -/
def State.setFlags (s : State) (f : Flags) : State := { s with flags := f }

/-- `emit(v)`: append the byte to the output stream (R32). -/
def State.emit (s : State) (v : Byte) : State := { s with out := s.out ++ [v] }

/-- `halt()`: the status becomes Halted (R31, R160). -/
def State.halt (s : State) : State := { s with status := .halted }

/-- `sp_dec()` (R130): exact arithmetic; below 0 it raises OutOfBounds with the value -1 (the spec's decision D7, log 6). -/
def spDec (pc0 : Nat) (s : State) : Except FaultCause State :=
  let v : Int := (s.sp.toNat : Int) - 1
  if v < 0 then .error (outOfBounds pc0 .memory v) else .ok (s.setReg Config.spIndex (BitVec.ofInt 8 v))

/-- `sp_inc()` (R130): above 255 it raises OutOfBounds with the value 256 (D7, log 6). -/
def spInc (pc0 : Nat) (s : State) : Except FaultCause State :=
  let v : Int := (s.sp.toNat : Int) + 1
  if v > 255 then .error (outOfBounds pc0 .memory v) else .ok (s.setReg Config.spIndex (BitVec.ofInt 8 v))

/-! The end of an instruction (40_cycle.md). -/

/-- The address just past an instruction with opcode `ir` at `pc0`: `pc0 + operand_count + 1` (R84, R85). -/
def pastInstr (ir : Byte) (pc0 : Nat) : Nat := pc0 + operandCount ir + 1

/-- The loop's auto-advance (R84, R86): it moves pc exactly when the status is still Running and `sets_pc = 0`; otherwise the
loop leaves pc as the instruction left it (R85, R88). -/
def autoAdvance (ir : Byte) (pc0 : Nat) (s : State) : State :=
  if s.status = .running ∧ setsPc ir = false then s.setPc (pastInstr ir pc0) else s

/-- The end of an instruction with opcode `ir` begun in state `s`: what its handler leaves goes through the PC policy; a fault
its handler raises is taken in `s`, so that no partial effect stays (R86, R87; the spec's decision D9, log 9). -/
def complete (ir : Byte) (s : State) : Except FaultCause State → Host.Outcome State Fault Refusal
  | .ok t => .next (autoAdvance ir s.pc t)
  | .error c => .next (takeFault c s)

end Machine
end Sys2Proof
end

