-- ==== Sys2Proof/Machine/Flags.lean ====
section
/-! DEFINITION. The flag computations: what CMP writes (R105, conflict C2) and FL shown as a byte (R29). -/

namespace Sys2Proof
namespace Machine

/-- `{E: x == y, G: x > y, L: x < y}`, unsigned (R105; the spec's decision D15, log 20). -/
def compareFlags (x y : Byte) : Flags :=
  { e := decide (x.toNat = y.toNat), g := decide (x.toNat > y.toNat), l := decide (x.toNat < y.toNat) }

/-- FL shown as one byte, `0b00000LGE` (R29; PRESUMED, the spec's decision D5, log 24). No instruction reads it. -/
def Flags.toByte (f : Flags) : Byte :=
  (if f.l then 4 else 0) ||| (if f.g then 2 else 0) ||| (if f.e then 1 else 0)

end Machine
end Sys2Proof
end

