-- ==== Sys2Proof/Machine/Operands.lean ====
section
/-! DEFINITION. The operand forms (30_encoding.md section 2) and the reduction to 8 bits (R9). The forms are a register operand
and LDI's immediate byte, which is used as it is (R65); the stack form is SP, through `spDec` and `spInc` (Ops.lean). -/

namespace Sys2Proof
namespace Machine

/-- `u8(v) = v mod 256` of an exact integer (R9). -/
def u8 (v : Int) : Byte := BitVec.ofInt 8 v

/-- A register operand (R24, R64): the whole byte, unsigned; 8 to 255 raises OutOfBounds with the byte as the value. A meaning
checks every register operand before any effect (the spec's decision D10, log 8). -/
def regOperand (pc0 : Nat) (r : Byte) : Except FaultCause RegIdx :=
  if h : r.toNat < 8 then .ok ⟨r.toNat, h⟩ else .error (outOfBounds pc0 .register r.toNat)

/-- The two register operands of an ALU operation, operand byte 1 checked first (R100, R177). -/
def regPair (pc0 : Nat) (a b : Byte) : Except FaultCause (RegIdx × RegIdx) := do
  let i ← regOperand pc0 a
  let j ← regOperand pc0 b
  .ok (i, j)

end Machine
end Sys2Proof
end

