-- ==== Sys2Proof/Machine/Alu.lean ====
section
/-! DEFINITION. The ALU instructions ADD, SUB, MUL, DIV and CMP (41_alu.md). The selector check of R100 is made by `decode`. -/

namespace Sys2Proof
namespace Machine

/-- `x[a] <- u8(f(x[a], x[b]))` for an exact integer operation `f` (R107). It touches nothing but `x[a]` (R106). -/
def aluWrite (f : Int → Int → Int) (a b : Byte) (s : State) : Except FaultCause State := do
  let (i, j) ← regPair s.pc a b
  .ok (s.setReg i (u8 (f (s.reg i).toNat (s.reg j).toNat)))

/-- ADD (R101): `x[a] <- u8(x[a] + x[b])`. -/
def execAdd (a b : Byte) (s : State) : Host.Outcome State Fault Refusal :=
  complete Opcode.add s (aluWrite (fun x y => x + y) a b s)

/-- SUB (R102): `x[a] <- u8(x[a] - x[b])`. -/
def execSub (a b : Byte) (s : State) : Host.Outcome State Fault Refusal :=
  complete Opcode.sub s (aluWrite (fun x y => x - y) a b s)

/-- MUL (R103): `x[a] <- u8(x[a] * x[b])`. -/
def execMul (a b : Byte) (s : State) : Host.Outcome State Fault Refusal :=
  complete Opcode.mul s (aluWrite (fun x y => x * y) a b s)

/-- DIV (R104): the register operands are checked first, then the divisor; otherwise `x[a] <- x[a] // x[b]`, unsigned floor. -/
def execDiv (a b : Byte) (s : State) : Host.Outcome State Fault Refusal :=
  complete Opcode.div s do
    let (i, j) ← regPair s.pc a b
    if s.reg j = 0 then .error (divisionByZero s.pc b)
    else .ok (s.setReg i (u8 (((s.reg i).toNat / (s.reg j).toNat : Nat) : Int)))

/-- CMP (R105): all three flags written together; no register is written. -/
def execCmp (a b : Byte) (s : State) : Host.Outcome State Fault Refusal :=
  complete Opcode.cmp s do
    let (i, j) ← regPair s.pc a b
    .ok (s.setFlags (compareFlags (s.reg i) (s.reg j)))

end Machine
end Sys2Proof
end

