-- ==== Sys2Proof/Machine/Branch.lean ====
section
/-! DEFINITION. Jumps and conditional branches: JMP, JEQ and JNE (45_branch.md). All have `sets_pc = 1`; the target is not
checked (R153). -/

namespace Sys2Proof
namespace Machine

/-- A conditional branch with opcode `ir`: check `r`, taken or not (D10, log 8); then pc goes to `x[r]`, or past the operand
byte (R85, conflict C11). -/
def branchIf (ir : Byte) (taken : Bool) (r : Byte) (s : State) : Except FaultCause State := do
  let i ← regOperand s.pc r
  .ok (s.setPc (if taken then (s.reg i).toNat else pastInstr ir s.pc))

/-- JMP (R150): `pc <- x[r]`. -/
def execJmp (r : Byte) (s : State) : Host.Outcome State Fault Refusal :=
  complete Opcode.jmp s do
    let i ← regOperand s.pc r
    .ok (s.setPc (s.reg i).toNat)

/-- JEQ (R151): taken exactly when E is set. -/
def execJeq (r : Byte) (s : State) : Host.Outcome State Fault Refusal :=
  complete Opcode.jeq s (branchIf Opcode.jeq s.flags.e r s)

/-- JNE (R152): taken exactly when E is clear. -/
def execJne (r : Byte) (s : State) : Host.Outcome State Fault Refusal :=
  complete Opcode.jne s (branchIf Opcode.jne (!s.flags.e) r s)

end Machine
end Sys2Proof
end

