-- ==== Sys2Proof/Machine/CallReturn.lean ====
section
/-! DEFINITION. Call and return: CALL and RET (44_call_return.md). Both have `sets_pc = 1`: each sets pc itself (R85). -/

namespace Sys2Proof
namespace Machine

/-- CALL (R140): check `r`; `sp_dec()`; `MemWrite(x[7], 1, pc0 + 2)`; `pc <- x[r]`, read after the push (D8, log 7). The return
address `pc0 + operand_count + 1` fits a byte in every step (R140); outside a step it is reduced (log 10). -/
def execCall (r : Byte) (s : State) : Host.Outcome State Fault Refusal :=
  complete Opcode.call s do
    let i ← regOperand s.pc r
    let s1 ← spDec s.pc s
    let s2 ← memWrite s.pc s1.sp.toNat (u8 (pastInstr Opcode.call s.pc)) s1
    .ok (s2.setPc (s2.reg i).toNat)

/-- RET (R141): `t <- MemRead(x[7], 1)`; `sp_inc()`; `pc <- t`. -/
def execRet (s : State) : Host.Outcome State Fault Refusal :=
  complete Opcode.ret s do
    let t ← memRead s.pc s.sp.toNat s
    let s1 ← spInc s.pc s
    .ok (s1.setPc t.toNat)

end Machine
end Sys2Proof
end

