-- ==== Sys2Proof/Machine/DataMove.lean ====
section
/-! DEFINITION. Data move and output: LDI and PRN (42_data_move.md). -/

namespace Sys2Proof
namespace Machine

/-- LDI (R120): `x[r] <- imm`, the byte as it is (R65). -/
def execLdi (r imm : Byte) (s : State) : Host.Outcome State Fault Refusal :=
  complete Opcode.ldi s do
    let i ← regOperand s.pc r
    .ok (s.setReg i imm)

/-- PRN (R121): `emit(x[r])`. -/
def execPrn (r : Byte) (s : State) : Host.Outcome State Fault Refusal :=
  complete Opcode.prn s do
    let i ← regOperand s.pc r
    .ok (s.emit (s.reg i))

end Machine
end Sys2Proof
end

