-- ==== Sys2Proof/Machine/Halt.lean ====
section
/-! DEFINITION. HLT, the engine's only system instruction (46_halt.md, R181). -/

namespace Sys2Proof
namespace Machine

/-- HLT (R160, R88): the status becomes Halted; pc stays, because the auto-advance needs the status Running (R84). -/
def execHlt (s : State) : Host.Outcome State Fault Refusal :=
  complete Opcode.hlt s (.ok s.halt)

end Machine
end Sys2Proof
end

