-- ==== Sys2Proof/Machine/Stack.lean ====
section
/-! DEFINITION. The stack instructions PUSH and POP (43_stack.md). Effects run in the order the pseudocode is written, so that
an operand r7 sees the moved SP (the spec's decision D8, log 7). -/

namespace Sys2Proof
namespace Machine

/-- PUSH (R131): check `r`; `sp_dec()`; `MemWrite(x[7], 1, x[r])`, the register read after the decrement. -/
def execPush (r : Byte) (s : State) : Host.Outcome State Fault Refusal :=
  complete Opcode.push s do
    let i ← regOperand s.pc r
    let s1 ← spDec s.pc s
    memWrite s.pc s1.sp.toNat (s1.reg i) s1

/-- POP (R132): check `r`; `v <- MemRead(x[7], 1)`; `x[r] <- v`; `sp_inc()`, which for r7 increments the popped byte. -/
def execPop (r : Byte) (s : State) : Host.Outcome State Fault Refusal :=
  complete Opcode.pop s do
    let i ← regOperand s.pc r
    let v ← memRead s.pc s.sp.toNat s
    spInc s.pc (s.setReg i v)

end Machine
end Sys2Proof
end

