-- ==== Sys2Proof/Machine/Fetch.lean ====
section
/-! DEFINITION. The front half of a step: whether there is a step (R80), the fetch of three bytes (R81) and the decode (R82);
and how bytes are placed where the next step fetches. -/

namespace Sys2Proof
namespace Machine

/-- What the front half of a step finds. -/
inductive Fetched where
  /-- the run has ended: there is no step (R80, R210) -/
  | ended
  /-- a fetch or decode fault -/
  | raised (c : FaultCause)
  /-- the decoded instruction -/
  | decoded (i : Instr)
  deriving DecidableEq, Repr

/-- The three fetch reads, in order, for every instruction whatever its length (R81, conflict C5): `ir`, `op1`, `op2` (R30). -/
def fetch (s : State) : Except FaultCause (Byte × Byte × Byte) := do
  let ir ← memRead s.pc s.pc s
  let op1 ← memRead s.pc (s.pc + 1) s
  let op2 ← memRead s.pc (s.pc + 2) s
  .ok (ir, op1, op2)

/-- The fault of a byte that is no instruction (R173, R174). -/
def decodeCause (pc0 : Nat) : DecodeError → FaultCause
  | .unknownOpcode ir => unknownOpcode pc0 ir
  | .unsupportedOperation ir => unsupportedOperation pc0 ir

/-- Fetch, then decode: a fetch fault wins over a decode fault (R82, R177). No step from Halted or Error (R80). -/
def nextInstr (s : State) : Fetched :=
  if s.status = .running then
    match fetch s with
    | .error c => .raised c
    | .ok (ir, op1, op2) =>
      match decode ir op1 op2 with
      | .error e => .raised (decodeCause s.pc e)
      | .ok i => .decoded i
  else .ended

/-- Memory with bytes placed from an address up; a byte past the end of memory is not placed. -/
def Memory.place : Nat → List Byte → Memory → Memory
  | _, [], m => m
  | a, v :: vs, m => Memory.place (a + 1) vs (if a ≤ 255 then m.write a v else m)

/-- The state with the bytes of a table word placed where the next step fetches: at pc. -/
def placeTableWord (s : State) (nbits w : Nat) : State :=
  s.setMem (Memory.place s.pc (tableBytes nbits w) s.mem)

end Machine
end Sys2Proof
end

