-- ==== Sys2Proof/Machine/Step.lean ====
section
/-! DEFINITION. One step of the engine (R86), and an instruction placed where the next step fetches it. -/

namespace Sys2Proof
namespace Machine

/-- One step (R86): no step in an ended run (R80); a fetch or decode fault is taken (R178); a decoded instruction runs. -/
def step (s : State) : Host.Outcome State Fault Refusal :=
  match nextInstr s with
  | .ended => .fault .runEnded
  | .raised c => .next (takeFault c s)
  | .decoded i => exec i s

/-- The state with the instruction of a table word stored at pc, where `step` fetches (log 11). -/
def State.withFetchWord (s : State) (nbits w : Nat) : State := placeTableWord s nbits w

end Machine
end Sys2Proof
end

