-- ==== Sys2Proof/Machine/Loader.lean ====
section
/-! DEFINITION. Loading, before the first step: the program image text (R202), load errors (R203) and the loading of its bytes
(R201). The host's side; no step of the engine calls it. -/

namespace Sys2Proof
namespace Machine

/-- The loader's errors (R201, R203): each ends the load with no step run, and none is an engine fault (R175). -/
inductive LoadError where
  /-- missing or extra arguments, before any state is constructed -/
  | usage
  /-- the image path does not exist -/
  | fileNotFound
  /-- a significant payload that is not eight binary digits -/
  | malformedInstruction
  /-- more than 256 bytes -/
  | imageTooLarge
  deriving DecidableEq, Repr

/-- White space of the image text. PRESUMED (log 12; unsafe): the six ASCII white-space characters. -/
def isBlank (c : Char) : Bool :=
  c == ' ' || c == '\t' || c == '\n' || c == '\r' || c.toNat == 11 || c.toNat == 12

/-- Text without leading and trailing white space (R202). -/
def trim (t : Text) : Text := ((t.dropWhile isBlank).reverse.dropWhile isBlank).reverse

/-- The payload of an image line: the text before the first `#`, trimmed (R202). -/
def payload (line : Text) : Text := trim (line.takeWhile (fun c => c != '#'))

/-- A binary digit. -/
def isBinDigit (c : Char) : Bool := c == '0' || c == '1'

/-- Binary digits, most significant first, as a number (R202). -/
def binValue (ds : Text) : Nat := ds.foldl (fun n c => 2 * n + (if c == '1' then 1 else 0)) 0

/-- The byte of a significant payload: its first 8 characters, which must all be binary digits (R202, R203). -/
def payloadByte (p : Text) : Except LoadError Byte :=
  let ds := p.take 8
  if ds.length = 8 ∧ ds.all isBinDigit then .ok (BitVec.ofNat 8 (binValue ds)) else .error .malformedInstruction

/-- What one image line gives: nothing (blank, or not beginning with `0` or `1`), a byte, or an error (R202, R203). -/
def lineByte (line : Text) : Except LoadError (Option Byte) :=
  match payload line with
  | [] => .ok none
  | c :: rest => if isBinDigit c then (payloadByte (c :: rest)).map some else .ok none

/-- The bytes of the image lines, in order (R202). -/
def parseLines : List Text → Except LoadError (List Byte)
  | [] => .ok []
  | line :: rest => do
    let b ← lineByte line
    let bs ← parseLines rest
    .ok (b.toList ++ bs)

/-- Text cut at every occurrence of a character: always at least one piece. -/
def splitAtChar (sep : Char) : Text → List Text
  | [] => [[]]
  | c :: rest =>
    if c == sep then [] :: splitAtChar sep rest
    else match splitAtChar sep rest with
      | [] => [[c]]
      | piece :: more => (c :: piece) :: more

/-- The image of a text read line by line (R202); a line ends at a line feed (log 13). -/
def parseImage (t : Text) : Except LoadError (List Byte) := parseLines (splitAtChar '\n' t)

/-- Memory with the bytes written at rising addresses from `a` (R201). -/
def Memory.load : Nat → List Byte → Memory → Memory
  | _, [], m => m
  | a, b :: bs, m => Memory.load (a + 1) bs (m.write a b)

/-- Loading an image into the reset state: its bytes at 0, 1, 2, ... (R201); more than 256 bytes cannot be loaded. -/
def loadImage (image : List Byte) : Except LoadError State :=
  if image.length ≤ 256 then .ok (State.reset.setMem (Memory.load 0 image State.reset.mem)) else .error .imageTooLarge

/-- Starting from the command line (R203): exactly one argument, the image path (log 14); the image text of that path, from the
files given as path and text pairs; the loaded state. Reading the disk itself is out of scope (R5). DESIGN CHOICE (log 27; unsafe):
of a text that has a malformed line and more than 256 bytes, the error is MalformedInstruction, wherever the line stands. -/
def boot (args : List Text) (files : List (Text × Text)) : Except LoadError State :=
  match args with
  | [path] =>
    match files.lookup path with
    | none => .error .fileNotFound
    | some text => do
      let image ← parseImage text
      loadImage image
  | _ => .error .usage

/-- The image text line of a byte: eight binary digits, most significant first (R72, R202). -/
def imageLine (b : Byte) : Text := [7, 6, 5, 4, 3, 2, 1, 0].map (fun k => if b.getLsbD k then '1' else '0')

/-- The image text of bytes, one byte a line (R72), each line ended by a line feed (log 13). -/
def imageText : List Byte → Text
  | [] => []
  | b :: bs => imageLine b ++ '\n' :: imageText bs

end Machine
end Sys2Proof
end

