-- ==== Sys2Proof/Machine/HostPort.lean ====
section
/-! DEFINITION. What the host gives of an ended run (R209): the output lines, the exit value and the data a diagnostic must
name. The diagnostic's text and the non-zero values are the host's (R210; log 15). -/

namespace Sys2Proof
namespace Machine

/-- The decimal digit of a number below 10. -/
def digitChar (n : Nat) : Char := Char.ofNat (48 + n % 10)

/-- A byte in decimal, without leading zeros (R209). -/
def decimal (v : Byte) : Text :=
  let n := v.toNat
  if n < 10 then [digitChar n]
  else if n < 100 then [digitChar (n / 10), digitChar n]
  else [digitChar (n / 100), digitChar (n / 10), digitChar n]

/-- The printed lines: one decimal value for each byte of the output stream, in order (R209). -/
def outputLines (s : State) : List Text := s.out.map decimal

/-- The exit value of a run by its final status (R209): 0 on Halted, not 0 on Error; none while it has not ended. -/
def exitValue : Status → Option Nat
  | .running => none
  | .halted => some 0
  | .error _ info => some (Config.faultExit info.code info.pc info.value + 1)

/-- The number of a load error, a label for its free exit value. -/
def LoadError.label : LoadError → Nat
  | .usage => 0
  | .fileNotFound => 1
  | .malformedInstruction => 2
  | .imageTooLarge => 3

/-- The exit value of a failed load: not 0 for FileNotFound (R203); for the others the spec gives none, so it is free. -/
def loadErrorExit (e : LoadError) : Nat :=
  match e with
  | .fileNotFound => Config.loadExit e.label + 1
  | .usage => Config.loadExit e.label
  | .malformedInstruction => Config.loadExit e.label
  | .imageTooLarge => Config.loadExit e.label

/-- What the host may report of an ended run (R209). -/
structure Report where
  lines : List Text
  exit : Nat
  /-- the error kind and info the diagnostic must name, on Error only -/
  diagnostic : Option FaultCause
  deriving DecidableEq, Repr

/-- The data of the diagnostic: the kind and the info record (R209). -/
def diagnosticOf : Status → Option FaultCause
  | .error kind info => some { kind := kind, info := info }
  | .running => none
  | .halted => none

/-- The report of a state whose run has ended (R209); none while it is Running (R210). -/
def report (s : State) : Option Report :=
  (exitValue s.status).map fun code => { lines := outputLines s, exit := code, diagnostic := diagnosticOf s.status }

end Machine
end Sys2Proof
end

