-- ==== Sys2Proof/Machine/Assembler.lean ====
section
/-! DEFINITION. The assembly syntax of R70 and R71: printing an instruction and assembling text. Notation only: no step of the
engine uses it. Spaces around mnemonics, operands and commas are allowed, and a line ends at a line feed (log 19). -/

namespace Sys2Proof
namespace Machine

/-- The mnemonic, upper case (R71). -/
def mnemonicText : Instr → Text
  | .hlt => ['H', 'L', 'T']
  | .ldi _ _ => ['L', 'D', 'I']
  | .prn _ => ['P', 'R', 'N']
  | .push _ => ['P', 'U', 'S', 'H']
  | .pop _ => ['P', 'O', 'P']
  | .call _ => ['C', 'A', 'L', 'L']
  | .ret => ['R', 'E', 'T']
  | .jmp _ => ['J', 'M', 'P']
  | .jeq _ => ['J', 'E', 'Q']
  | .jne _ => ['J', 'N', 'E']
  | .add _ _ => ['A', 'D', 'D']
  | .sub _ _ => ['S', 'U', 'B']
  | .mul _ _ => ['M', 'U', 'L']
  | .div _ _ => ['D', 'I', 'V']
  | .cmp _ _ => ['C', 'M', 'P']

/-- The name `r0` to `r7` of a register (R71). -/
def regName (r : Byte) : Text := ['r', digitChar r.toNat]

/-- The operands of an instruction as text, first operand first (R70). -/
def operandText : Instr → Text
  | .hlt | .ret => []
  | .ldi r imm => ' ' :: regName r ++ ',' :: decimal imm
  | .prn r | .push r | .pop r | .call r | .jmp r | .jeq r | .jne r => ' ' :: regName r
  | .add a b | .sub a b | .mul a b | .div a b | .cmp a b => ' ' :: regName a ++ ',' :: regName b

/-- An instruction in assembly (R71). Only a well-formed one has a text: the syntax names r0 to r7. -/
def instrText (i : Instr) : Option Text :=
  if i.wellFormed then some (mnemonicText i ++ operandText i) else none

/-- The register of a name: `r` or `R` and a digit 0 to 7; `sp` is no name (R71). -/
def parseReg : Text → Option Byte
  | [c, d] => if (c == 'r' || c == 'R') ∧ 48 ≤ d.toNat ∧ d.toNat ≤ 55 then some (BitVec.ofNat 8 (d.toNat - 48)) else none
  | _ => none

/-- The value of a digit in a base of at most 16. -/
def digitValue (base : Nat) (c : Char) : Option Nat :=
  let n := c.toNat
  let v := if 48 ≤ n ∧ n ≤ 57 then n - 48 else if 97 ≤ n ∧ n ≤ 102 then n - 87 else if 65 ≤ n ∧ n ≤ 70 then n - 55 else 16
  if v < base then some v else none

/-- A number from its digits, most significant first. -/
def digitsValue (base : Nat) : Nat → Text → Option Nat
  | acc, [] => some acc
  | acc, c :: rest => do
    let v ← digitValue base c
    digitsValue base (base * acc + v) rest

/-- A number in decimal, or hexadecimal after `0x`, or binary after `0b` (R71); at least one digit, leading zeros allowed (log 19). -/
def parseNumber : Text → Option Nat
  | '0' :: 'x' :: d :: ds => digitsValue 16 0 (d :: ds)
  | '0' :: 'b' :: d :: ds => digitsValue 2 0 (d :: ds)
  | d :: ds => digitsValue 10 0 (d :: ds)
  | [] => none

/-- LDI's immediate: a number 0 to 255 (R71). -/
def parseImm (t : Text) : Option Byte := do
  let n ← parseNumber t
  if n ≤ 255 then some (BitVec.ofNat 8 n) else none

/-- Format Z: no operand (R63). -/
def asmZ (i : Instr) : List Text → Option Instr
  | [] => some i
  | _ => none

/-- Format R: one register (R63). -/
def asmR (mk : Byte → Instr) : List Text → Option Instr
  | [r] => (parseReg r).map mk
  | _ => none

/-- Format RR: two registers (R63). -/
def asmRR (mk : Byte → Byte → Instr) : List Text → Option Instr
  | [a, b] => do
    let i ← parseReg a
    let j ← parseReg b
    some (mk i j)
  | _ => none

/-- Format RI: a register and an immediate (R63). -/
def asmRI (mk : Byte → Byte → Instr) : List Text → Option Instr
  | [r, imm] => do
    let i ← parseReg r
    let v ← parseImm imm
    some (mk i v)
  | _ => none

/-- The instruction of a mnemonic and operand texts (R71). -/
def asmInstr (mnemonic : Text) (ops : List Text) : Option Instr :=
  if mnemonic = ['H', 'L', 'T'] then asmZ .hlt ops
  else if mnemonic = ['R', 'E', 'T'] then asmZ .ret ops
  else if mnemonic = ['P', 'R', 'N'] then asmR .prn ops
  else if mnemonic = ['P', 'U', 'S', 'H'] then asmR .push ops
  else if mnemonic = ['P', 'O', 'P'] then asmR .pop ops
  else if mnemonic = ['C', 'A', 'L', 'L'] then asmR .call ops
  else if mnemonic = ['J', 'M', 'P'] then asmR .jmp ops
  else if mnemonic = ['J', 'E', 'Q'] then asmR .jeq ops
  else if mnemonic = ['J', 'N', 'E'] then asmR .jne ops
  else if mnemonic = ['A', 'D', 'D'] then asmRR .add ops
  else if mnemonic = ['S', 'U', 'B'] then asmRR .sub ops
  else if mnemonic = ['M', 'U', 'L'] then asmRR .mul ops
  else if mnemonic = ['D', 'I', 'V'] then asmRR .div ops
  else if mnemonic = ['C', 'M', 'P'] then asmRR .cmp ops
  else if mnemonic = ['L', 'D', 'I'] then asmRI .ldi ops
  else none

/-- One instruction from text: a mnemonic, then operands separated by commas (R70). -/
def parseInstr (t : Text) : Option Instr :=
  let t := trim t
  let ops := trim (t.dropWhile (fun c => !isBlank c))
  asmInstr (t.takeWhile (fun c => !isBlank c)) (if ops = [] then [] else (splitAtChar ',' ops).map trim)

/-- The statements of a line: `;` separates them (R71), and one of white space only is no instruction. -/
def asmStatements (line : Text) : List Text := ((splitAtChar ';' line).map trim).filter (fun t => !t.isEmpty)

/-- The bytes of assembly statements, in order; there are no pseudo-instructions (R72). -/
def assembleStatements : List Text → Option (List Byte)
  | [] => some []
  | t :: rest => do
    let i ← parseInstr t
    let bs ← assembleStatements rest
    some (encode i ++ bs)

/-- The image of an assembly text (R71, R72). DESIGN CHOICE (log 19; safe): a line of assembly ends at a line feed. -/
def assemble (t : Text) : Option (List Byte) := assembleStatements ((splitAtChar '\n' t).flatMap asmStatements)

end Machine
end Sys2Proof
end

