-- ==== Sys2Proof/Machine/Bus.lean ====
section
/-! DEFINITION. The memory accesses of a step, in the order the engine issues them (R43, R49; the spec's decision D26, log 18):
the fetch reads, then at most one data access. An address outside 0..255 is no access. The step does not use this list; the
list says what a memory on the other side of the interface sees. -/

namespace Sys2Proof
namespace Machine

/-- One access of the memory interface (R41, R42). -/
inductive Access where
  | read (a : Nat)
  | write (a : Nat) (v : Byte)
  deriving DecidableEq, Repr

/-- The fetch reads that reach memory: at pc, pc+1, pc+2, up to the first outside it (R49, R81). -/
def fetchAccesses (s : State) : List Access :=
  (([s.pc, s.pc + 1, s.pc + 2] : List Nat).takeWhile (fun a => decide (a ≤ 255))).map Access.read

/-- The data access of an instruction (the table of R43): PUSH and CALL write below SP, POP and RET read at SP, no other
instruction makes one, and one that faults before its access makes none. -/
def dataAccesses (i : Instr) (s : State) : List Access :=
  match i with
  | .push r =>
    match regOperand s.pc r, spDec s.pc s with
    | .ok j, .ok t => [.write t.sp.toNat (t.reg j)]
    | _, _ => []
  | .call r =>
    match regOperand s.pc r, spDec s.pc s with
    | .ok _, .ok t => [.write t.sp.toNat (u8 (pastInstr Opcode.call s.pc))]
    | _, _ => []
  | .pop r =>
    match regOperand s.pc r with
    | .ok _ => [.read s.sp.toNat]
    | .error _ => []
  | .ret => [.read s.sp.toNat]
  | .hlt | .ldi _ _ | .prn _ | .jmp _ | .jeq _ | .jne _ | .add _ _ | .sub _ _ | .mul _ _ | .div _ _ | .cmp _ _ => []

/-- Every access of the next step, in order (R49); none when there is no step (R80). -/
def stepAccesses (s : State) : List Access :=
  match nextInstr s with
  | .ended => []
  | .raised _ => fetchAccesses s
  | .decoded i => fetchAccesses s ++ dataAccesses i s

/-- Memory after a list of accesses. -/
def Memory.replay : List Access → Memory → Memory
  | [], m => m
  | .read _ :: rest, m => Memory.replay rest m
  | .write a v :: rest, m => Memory.replay rest (m.write a v)

end Machine
end Sys2Proof
end

