-- ==== Sys2Proof/Machine/Run.lean ====
section
/-! DEFINITION. A run (R90, R210): the step repeated while the status is Running. -/

namespace Sys2Proof
namespace Machine

/-- The end state of a run, if it ends within a budget of steps (R90, R210). A run stopped by the budget answers nothing: the
spec says nothing of such a run (D24, log 17). -/
def runToEnd : Nat → State → Option State
  | 0, s => if s.status = .running then none else some s
  | budget + 1, s =>
    match step s with
    | .next t => runToEnd budget t
    | .fault .runEnded => some s
    | .refused _ => none

end Machine
end Sys2Proof
end

