-- ==== Sys2Proof/Safety.lean ====
section
/-! DEFINITION. What claims say of a state and a run: the invariant of the engine, a state without a fault, and the state a
faulting step leaves. -/

namespace Sys2Proof
namespace Machine

/-- At most one of E, G and L is set: all clear at reset (R28), exactly one after CMP (R105). -/
def Flags.atMostOne (f : Flags) : Bool := !(f.e && f.g) && !(f.e && f.l) && !(f.g && f.l)

/-- The info record of a fault is one the table of R170 and R171 allow for its kind: the kind's code, a space for OutOfBounds
only, a memory value of -1 or 256, a register value of 8 to 255, and a byte for the other kinds. -/
def FaultInfo.fits (kind : FaultKind) (info : FaultInfo) : Bool :=
  info.code == kind.code &&
    match kind, info.space with
    | .outOfBounds, some .memory => info.value == -1 || info.value == 256
    | .outOfBounds, some .register => decide (8 ≤ info.value ∧ info.value ≤ 255)
    | .divisionByZero, none => decide (0 ≤ info.value ∧ info.value ≤ 7)
    | .unknownOpcode, none => decide (0 ≤ info.value ∧ info.value ≤ 255)
    | .unsupportedOperation, none => decide (0 ≤ info.value ∧ info.value ≤ 255)
    | _, _ => false

/-- The status fits pc: an error records the address pc still holds (R87, R178), in a record that fits its kind. -/
def Status.fits (pc : Nat) : Status → Bool
  | .running => true
  | .halted => true
  | .error kind info => info.pc == pc && info.fits kind

/-- The invariant of the engine: memory canonical and inside its 256 bytes (R40), pc in 0..256 (R26), at most one flag (R105),
and an error that records where and what it is (R170, R178). Every register is a byte by its type (R20). -/
abbrev State.Inv (s : State) : Prop :=
  s.mem.wf = true ∧ s.pc ≤ 256 ∧ s.flags.atMostOne = true ∧ s.status.fits s.pc = true

/-- A state no fault has ended (R31): what a safe run stays in. -/
abbrev State.Sound (s : State) : Prop := s.status = .running ∨ s.status = .halted

/-- The registers an instruction may write (the "written by" column of 10_state.md section 8): its destination register, and SP
for PUSH, POP, CALL and RET, which move it (R23). -/
def writesReg (i : Instr) (j : RegIdx) : Bool :=
  match i with
  | .ldi r _ => r.toNat == j.val
  | .pop r => r.toNat == j.val || j == Config.spIndex
  | .push _ | .call _ | .ret => j == Config.spIndex
  | .add a _ | .sub a _ | .mul a _ | .div a _ => a.toNat == j.val
  | .hlt | .prn _ | .jmp _ | .jeq _ | .jne _ | .cmp _ _ => false

/-- The instructions that store to memory, below SP (R43). -/
def storesBelowSp (i : Instr) : Bool :=
  match i with
  | .push _ | .call _ => true
  | .hlt | .ldi _ _ | .prn _ | .pop _ | .ret | .jmp _ | .jeq _ | .jne _ | .add _ _ | .sub _ _ | .mul _ _ | .div _ _ | .cmp _ _ =>
    false

end Machine
end Sys2Proof
end

