-- ==== Sys2Proof/Certificates/Slice0/Obligations.lean ====
section
/-! DEFINITION. The statements for the provers, from the numbered rules of spec/. A name "log n" is notes/assumptions/n.md; "D n" is
a row of 92_eei_decisions.md, the spec's own choice. -/

open Sys2Proof Sys2Proof.Machine

/-! Reset (70_reset_and_hazards.md R200). -/

/-- R200: what every piece of state holds after reset. R0 to R6 at 0 and FL clear are the spec's decisions D3 and D4 (logs 2
and 3); the rest is stated by the source. -/
def Obligations.ResetHoldsItsValues : Prop :=
  (∀ a, State.reset.mem.read a = 0x00) ∧ (∀ i : RegIdx, State.reset.reg i = if i = 7 then 0xF4 else 0x00) ∧ State.reset.pc = 0 ∧
    State.reset.flags = { e := false, g := false, l := false } ∧ State.reset.status = .running ∧ State.reset.out = []

/-! The invariant (R26, R40, R105, R170, R178). -/

/-- The reset state meets the invariant of the engine. That at most one flag is set there is the spec's decision D4, FL clear, which
is not in the source (log 3, DESIGN CHOICE). -/
def Obligations.ResetMeetsInvariant : Prop := State.reset.Inv

/-- Every step from a state that meets the invariant leads to one: memory stays canonical and inside 256 bytes, pc stays in
0..256 (R26), at most one flag is set (R105), and an error records pc and fits its kind (R170, R171, R178).
The bound of pc is D6 and the values -1 and 256 are D7 (log 6); the error's pc and record are D9 and D13 (log 9). -/
def Obligations.StepKeepsInvariant : Prop :=
  ∀ s t : State, s.Inv → step s = .next t → t.Inv

/-! Encoding (30_encoding.md). The opcode values are the spec's decision D1 (log 1). -/

/-- Decoding the bytes of an instruction gives it back, with every operand at every byte and whatever bytes follow.
The opcode values are D1 (log 1). -/
def Obligations.DecodeOfEncodeIsTheInstruction : Prop :=
  ∀ (i : Instr) (x y : Byte), decodeWindow (encode i ++ [x, y]) = .ok i

/-- Bytes have one meaning: a decoded instruction encodes to the bytes it was read from, as many as bits 7..6 say (R60).
The opcode values are D1 (log 1). -/
def Obligations.EncodeOfDecodedIsTheBytes : Prop :=
  ∀ (ir op1 op2 : Byte) (i : Instr), decode ir op1 op2 = .ok i → encode i = [ir, op1, op2].take (operandCount ir + 1)

/-- R62: the fields of the opcode byte; with bit 5 set the ALU operation of the whole byte on the two operand bytes, or
UnsupportedOperation; with bit 5 clear the handler of the whole byte, or UnknownOpcode. -/
def Obligations.DecodeFollowsOpcodeFields : Prop :=
  ∀ ir op1 op2 : Byte,
    operandCount ir = ir.toNat / 64 ∧ isAlu ir = ir.getLsbD 5 ∧ setsPc ir = ir.getLsbD 4 ∧
      (isAlu ir = true →
        if ir ∈ Opcode.alus then ∃ i, decode ir op1 op2 = .ok i ∧ i.opcode = ir ∧ i.operandBytes = [op1, op2]
        else decode ir op1 op2 = .error (.unsupportedOperation ir)) ∧
      (isAlu ir = false →
        if ir ∈ Opcode.handlers then ∃ i, decode ir op1 op2 = .ok i ∧ i.opcode = ir
        else decode ir op1 op2 = .error (.unknownOpcode ir))

/-- R67: bits 7..6 are the operand count, bit 5 is set for the ALU operations only, bit 4 for CALL, RET, JMP, JEQ and JNE only.
The opcode values are D1 (log 1). -/
def Obligations.OpcodesObeyBitRules : Prop :=
  ∀ i : Instr, operandCount i.opcode = i.operandBytes.length ∧ (isAlu i.opcode = true ↔ i.format = .rr) ∧
    (setsPc i.opcode = true ↔ i = .ret ∨ ∃ r, i = .call r ∨ i = .jmp r ∨ i = .jeq r ∨ i = .jne r)

/-- Words of every format, written out from the table of R66, and two bytes of the wider LS-8 set that are none here (R68).
The opcode values are D1 (log 1). -/
def Obligations.SpecWordsDecode : Prop :=
  decodeWindow [0b10000010, 0b00000000, 0b00001000] = .ok (.ldi 0 8) ∧
    decodeWindow [0b10100000, 0b00000000, 0b00000001] = .ok (.add 0 1) ∧
    decodeWindow [0b10100111, 0b00000011, 0b00000010] = .ok (.cmp 3 2) ∧
    decodeWindow [0b01000111, 0b00000111] = .ok (.prn 7) ∧ decodeWindow [0b01000101, 0b00000100] = .ok (.push 4) ∧
    decodeWindow [0b01010000, 0b00000001] = .ok (.call 1) ∧ decodeWindow [0b01010101, 0b00000010] = .ok (.jeq 2) ∧
    decodeWindow [0b00010001] = .ok .ret ∧ decodeWindow [0b00000001] = .ok .hlt ∧
    decodeWindow [0b00000000] = .error (.unknownOpcode 0x00) ∧ decodeWindow [0b10100100] = .error (.unsupportedOperation 0xA4)

/-! The step (40_cycle.md). -/

/-- R81: with its three addresses in memory the fetch gives the bytes at pc, pc+1 and pc+2. (That all three are always read is
the spec's decision D11, log 6.) -/
def Obligations.FetchReadsThreeBytes : Prop :=
  ∀ s : State, s.pc ≤ 253 → fetch s = .ok (s.mem.read s.pc, s.mem.read (s.pc + 1), s.mem.read (s.pc + 2))

/-- R81, R171: a step at 254, 255 or 256 raises OutOfBounds with the value 256, whatever the instruction there (D6, D11; log 6). That
nothing but the status changes is D9, and the record's fields are D13 (log 9). -/
def Obligations.FetchAtTopFaults : Prop :=
  ∀ s : State, s.status = .running → 253 < s.pc → s.pc ≤ 256 →
    step s = .next { s with status := .error .outOfBounds { code := 1, pc := s.pc, value := 256, space := some .memory } }

/-- R86: when the fetched bytes decode to an instruction, the step is that instruction's `exec`; the PC policy is inside it. -/
def Obligations.StepRunsTheDecodedInstruction : Prop :=
  ∀ (s : State) (ir op1 op2 : Byte) (i : Instr), s.status = .running → fetch s = .ok (ir, op1, op2) →
    decode ir op1 op2 = .ok i → step s = exec i s

/-- The same from the bytes in memory: where the bytes of an instruction lie at pc, the step runs that instruction, whatever byte
follows it. The opcode values are D1 (log 1), and the three-byte fetch is D11 (log 6). -/
def Obligations.StepRunsTheEncodedInstruction : Prop :=
  ∀ (i : Instr) (s : State), s.status = .running → s.pc ≤ 253 →
    (∀ k (h : k < (encode i).length), s.mem.read (s.pc + k) = (encode i)[k]) → step s = exec i s

/-- R173: a fetched byte with bit 5 = 0 that is no handler opcode ends the run in Error UnknownOpcode, reporting pc and the byte.
That nothing but the status changes is the spec's decision D9, and the record's fields are D13 (log 9, DESIGN CHOICE). -/
def Obligations.UnknownByteFaults : Prop :=
  ∀ (s : State) (ir op1 op2 : Byte), s.status = .running → fetch s = .ok (ir, op1, op2) → ir.getLsbD 5 = false →
    ir ∉ Opcode.handlers → ∃ info : FaultInfo, info.pc = s.pc ∧ info.value = ir.toNat ∧
      step s = .next { s with status := .error .unknownOpcode info }

/-- R174: a fetched byte with bit 5 = 1 that is no ALU opcode ends the run in Error UnsupportedOperation. That
nothing but the status changes is the spec's decision D9, and the record's pc and byte are D13 (log 9, DESIGN CHOICE). -/
def Obligations.UnsupportedByteFaults : Prop :=
  ∀ (s : State) (ir op1 op2 : Byte), s.status = .running → fetch s = .ok (ir, op1, op2) → ir.getLsbD 5 = true →
    ir ∉ Opcode.alus → ∃ info : FaultInfo, info.pc = s.pc ∧ info.value = ir.toNat ∧
      step s = .next { s with status := .error .unsupportedOperation info }

/-- A running engine always has a next state: no instruction, operand or address stops the model. A fault is a next
state too (log 4). -/
def Obligations.RunningStepAnswersNextState : Prop :=
  ∀ s : State, s.status = .running → ∃ t, step s = .next t

/-- R80, R210: an ended run has no step. That the model says so by the outcome `fault runEnded` is its own convention (log 5). -/
def Obligations.EndedRunHasNoStep : Prop :=
  ∀ s : State, s.status = .halted ∨ (∃ kind info, s.status = .error kind info) → step s = .fault .runEnded

/-- R178: a step that raises a fault changes nothing but the status, and its record holds the address pc still holds. That there
is no partial effect is the spec's decision D9 (R87), and the record's fields are D13 (log 9, DESIGN CHOICE). -/
def Obligations.FaultChangesOnlyStatus : Prop :=
  ∀ (s t : State) (kind : FaultKind) (info : FaultInfo), step s = .next t → t.status = .error kind info →
    s.status = .running ∧ t = { s with status := .error kind info } ∧ info.pc = s.pc

/-- R84: when a step ends without a fault, the status still Running and `sets_pc = 0`, pc is moved past the operand bytes. -/
def Obligations.AutoAdvanceMovesPastOperands : Prop :=
  ∀ (s t : State) (ir op1 op2 : Byte), fetch s = .ok (ir, op1, op2) → step s = .next t → t.status = .running →
    setsPc ir = false → t.pc = s.pc + operandCount ir + 1

/-- R85, R140, R141, R150 to R152: with `sets_pc = 1` the loop leaves pc; CALL (its register as it reads after the push, which for r7
is the spec's decision D8, log 7), RET and JMP set it, a taken JEQ or JNE sets it to the target, and one not
taken to `pc + operand_count + 1`, which is `pc + 2`. -/
def Obligations.PcSettersSetPc : Prop :=
  (∀ (ir : Byte) (p : Nat) (u : State), setsPc ir = true → autoAdvance ir p u = u) ∧
    (∀ (r : Byte) (s t : State) (h : r.toNat < 8), t.status = .running →
      (exec (.call r) s = .next t → t.pc = (t.reg ⟨r.toNat, h⟩).toNat) ∧
        (exec .ret s = .next t → t.pc = (s.mem.read s.sp.toNat).toNat) ∧
        (exec (.jmp r) s = .next t → t.pc = (s.reg ⟨r.toNat, h⟩).toNat) ∧
        (exec (.jeq r) s = .next t → t.pc = if s.flags.e then (s.reg ⟨r.toNat, h⟩).toNat else s.pc + 2) ∧
        (exec (.jne r) s = .next t → t.pc = if s.flags.e then s.pc + 2 else (s.reg ⟨r.toNat, h⟩).toNat)) ∧
    operandCount Opcode.jeq + 1 = 2 ∧ operandCount Opcode.jne + 1 = 2

/-! What each instruction does where it completes: its result, everything it leaves, and that it answers a next state. -/

/-- R101: `x[a]` becomes the sum modulo 256; no other register, flag, memory byte or output changes. -/
def Obligations.AddCompletes : Prop :=
  ∀ (a b : Byte) (s : State) (ha : a.toNat < 8) (hb : b.toNat < 8), s.status = .running →
    ∃ t, exec (.add a b) s = .next t ∧
      (t.reg ⟨a.toNat, ha⟩).toNat = ((s.reg ⟨a.toNat, ha⟩).toNat + (s.reg ⟨b.toNat, hb⟩).toNat) % 256 ∧
      (∀ j : RegIdx, j.val ≠ a.toNat → t.reg j = s.reg j) ∧ t = { s with regs := t.regs, pc := s.pc + 3 }

/-- R102: `x[a]` becomes the difference modulo 256. -/
def Obligations.SubCompletes : Prop :=
  ∀ (a b : Byte) (s : State) (ha : a.toNat < 8) (hb : b.toNat < 8), s.status = .running →
    ∃ t, exec (.sub a b) s = .next t ∧
      ((t.reg ⟨a.toNat, ha⟩).toNat : Int) = ((s.reg ⟨a.toNat, ha⟩).toNat - (s.reg ⟨b.toNat, hb⟩).toNat : Int) % 256 ∧
      (∀ j : RegIdx, j.val ≠ a.toNat → t.reg j = s.reg j) ∧ t = { s with regs := t.regs, pc := s.pc + 3 }

/-- R103: `x[a]` becomes the product modulo 256. -/
def Obligations.MulCompletes : Prop :=
  ∀ (a b : Byte) (s : State) (ha : a.toNat < 8) (hb : b.toNat < 8), s.status = .running →
    ∃ t, exec (.mul a b) s = .next t ∧
      (t.reg ⟨a.toNat, ha⟩).toNat = ((s.reg ⟨a.toNat, ha⟩).toNat * (s.reg ⟨b.toNat, hb⟩).toNat) % 256 ∧
      (∀ j : RegIdx, j.val ≠ a.toNat → t.reg j = s.reg j) ∧ t = { s with regs := t.regs, pc := s.pc + 3 }

/-- R104: with a divisor that is not 0, `x[a]` becomes the floor of the quotient, unsigned by the spec's decision D15 (log 20). -/
def Obligations.DivCompletes : Prop :=
  ∀ (a b : Byte) (s : State) (ha : a.toNat < 8) (hb : b.toNat < 8), s.status = .running → s.reg ⟨b.toNat, hb⟩ ≠ 0 →
    ∃ t, exec (.div a b) s = .next t ∧
      (t.reg ⟨a.toNat, ha⟩).toNat = (s.reg ⟨a.toNat, ha⟩).toNat / (s.reg ⟨b.toNat, hb⟩).toNat ∧
      (∀ j : RegIdx, j.val ≠ a.toNat → t.reg j = s.reg j) ∧ t = { s with regs := t.regs, pc := s.pc + 3 }

/-- R105: E, G and L say whether the first register equals, exceeds or is below the second, unsigned (D15, log 20), and exactly
one of them is set; nothing but FL and pc changes. -/
def Obligations.CmpCompletes : Prop :=
  ∀ (a b : Byte) (s : State) (ha : a.toNat < 8) (hb : b.toNat < 8), s.status = .running →
    ∃ t, exec (.cmp a b) s = .next t ∧
      (t.flags.e = true ↔ (s.reg ⟨a.toNat, ha⟩).toNat = (s.reg ⟨b.toNat, hb⟩).toNat) ∧
      (t.flags.g = true ↔ (s.reg ⟨a.toNat, ha⟩).toNat > (s.reg ⟨b.toNat, hb⟩).toNat) ∧
      (t.flags.l = true ↔ (s.reg ⟨a.toNat, ha⟩).toNat < (s.reg ⟨b.toNat, hb⟩).toNat) ∧
      [t.flags.e, t.flags.g, t.flags.l].count true = 1 ∧ t = { s with flags := t.flags, pc := s.pc + 3 }

/-- R120: `x[r]` becomes the immediate byte as it is; nothing else but pc changes. -/
def Obligations.LdiCompletes : Prop :=
  ∀ (r imm : Byte) (s : State) (h : r.toNat < 8), s.status = .running →
    ∃ t, exec (.ldi r imm) s = .next t ∧ t.reg ⟨r.toNat, h⟩ = imm ∧
      (∀ j : RegIdx, j.val ≠ r.toNat → t.reg j = s.reg j) ∧ t = { s with regs := t.regs, pc := s.pc + 3 }

/-- R121: the register's byte is appended to the output; nothing else but pc changes. -/
def Obligations.PrnCompletes : Prop :=
  ∀ (r : Byte) (s : State) (h : r.toNat < 8), s.status = .running →
    exec (.prn r) s = .next { s with out := s.out ++ [s.reg ⟨r.toNat, h⟩], pc := s.pc + 2 }

/-- R131: with SP not 0, SP goes down by 1, and the byte at the new SP is the register as it reads after the decrement (which
for r7 is the new SP itself, D8); every other byte and register is as before. (D8 is log 7.) -/
def Obligations.PushCompletes : Prop :=
  ∀ (r : Byte) (s : State) (h : r.toNat < 8), s.status = .running → s.mem.wf = true → 1 ≤ s.sp.toNat →
    ∃ t, exec (.push r) s = .next t ∧ t.sp.toNat + 1 = s.sp.toNat ∧ (∀ j : RegIdx, j ≠ 7 → t.reg j = s.reg j) ∧
      t.mem.read t.sp.toNat = t.reg ⟨r.toNat, h⟩ ∧ (∀ a, a ≠ t.sp.toNat → t.mem.read a = s.mem.read a) ∧
      t = { s with mem := t.mem, regs := t.regs, pc := s.pc + 2 }

/-- R132: a register other than r7 gets the byte at SP and SP goes up by 1, if SP is not 255; r7 gets that byte plus 1, if the
byte is not 255 (D7, D8). Memory keeps the byte. (D7 is log 6, D8 is log 7.) -/
def Obligations.PopCompletes : Prop :=
  (∀ (r : Byte) (s : State) (h : r.toNat < 8), s.status = .running → r.toNat ≠ 7 → s.sp.toNat ≤ 254 →
    ∃ t, exec (.pop r) s = .next t ∧ t.reg ⟨r.toNat, h⟩ = s.mem.read s.sp.toNat ∧ t.sp.toNat = s.sp.toNat + 1 ∧
      (∀ j : RegIdx, j.val ≠ r.toNat → j ≠ 7 → t.reg j = s.reg j) ∧ t = { s with regs := t.regs, pc := s.pc + 2 }) ∧
  (∀ s : State, s.status = .running → (s.mem.read s.sp.toNat).toNat ≤ 254 →
    ∃ t, exec (.pop 7) s = .next t ∧ t.sp.toNat = (s.mem.read s.sp.toNat).toNat + 1 ∧
      (∀ j : RegIdx, j ≠ 7 → t.reg j = s.reg j) ∧ t = { s with regs := t.regs, pc := s.pc + 2 })

/-- R140: with SP not 0, in a state whose instruction was fetched (pc at most 253): SP goes down by 1, the byte at the new SP is
the return address pc + 2, and pc is the register as it reads after the push (D8); the rest is as before. (D8 is log 7.) -/
def Obligations.CallCompletes : Prop :=
  ∀ (r : Byte) (s : State) (h : r.toNat < 8), s.mem.wf = true → s.pc ≤ 253 → 1 ≤ s.sp.toNat →
    ∃ t, exec (.call r) s = .next t ∧ t.sp.toNat + 1 = s.sp.toNat ∧ (∀ j : RegIdx, j ≠ 7 → t.reg j = s.reg j) ∧
      (t.mem.read t.sp.toNat).toNat = s.pc + 2 ∧ (∀ a, a ≠ t.sp.toNat → t.mem.read a = s.mem.read a) ∧
      t = { s with mem := t.mem, regs := t.regs, pc := (t.reg ⟨r.toNat, h⟩).toNat }

/-- R141: with SP not 255, pc becomes the byte at SP and SP goes up by 1; the rest is as before.
That SP may not be 255 is D7 (log 6). -/
def Obligations.RetCompletes : Prop :=
  ∀ s : State, s.sp.toNat ≤ 254 →
    ∃ t, exec .ret s = .next t ∧ t.sp.toNat = s.sp.toNat + 1 ∧ (∀ j : RegIdx, j ≠ 7 → t.reg j = s.reg j) ∧
      t = { s with regs := t.regs, pc := (s.mem.read s.sp.toNat).toNat }

/-- R150: pc becomes the register's value, unchecked (R153); nothing else changes. -/
def Obligations.JmpCompletes : Prop :=
  ∀ (r : Byte) (s : State) (h : r.toNat < 8), exec (.jmp r) s = .next { s with pc := (s.reg ⟨r.toNat, h⟩).toNat }

/-- R151: with E set pc becomes the register's value, with E clear pc + 2; nothing else changes. -/
def Obligations.JeqCompletes : Prop :=
  ∀ (r : Byte) (s : State) (h : r.toNat < 8),
    exec (.jeq r) s = .next { s with pc := if s.flags.e then (s.reg ⟨r.toNat, h⟩).toNat else s.pc + 2 }

/-- R152: with E clear pc becomes the register's value, with E set pc + 2; nothing else changes. -/
def Obligations.JneCompletes : Prop :=
  ∀ (r : Byte) (s : State) (h : r.toNat < 8),
    exec (.jne r) s = .next { s with pc := if s.flags.e then s.pc + 2 else (s.reg ⟨r.toNat, h⟩).toNat }

/-- R160, R88: the status becomes Halted and nothing else changes, pc included (D14, log 25). -/
def Obligations.HltCompletes : Prop :=
  ∀ s : State, exec .hlt s = .next { s with status := .halted }

/-! Where instructions fault (60_exceptions.md). The record's fields are the spec's decision D13 (log 9). -/

/-- R171 case 2: the first operand byte that names no register raises OutOfBounds before any effect, in every instruction with a
register operand, a branch not taken included, whatever SP or the divisor holds (D10, log 8; D12, log 9). That
nothing but the status changes is D9 (log 9). The record's fields are D13 (log 9). -/
def Obligations.BadRegisterOperandFaults : Prop :=
  (∀ (r imm : Byte) (s : State), 8 ≤ r.toNat →
    ∀ i ∈ [Instr.ldi r imm, .prn r, .push r, .pop r, .call r, .jmp r, .jeq r, .jne r],
      exec i s = .next
        { s with status := .error .outOfBounds { code := 1, pc := s.pc, value := r.toNat, space := some .register } }) ∧
  (∀ (a b : Byte) (s : State), 8 ≤ a.toNat →
    ∀ i ∈ [Instr.add a b, .sub a b, .mul a b, .div a b, .cmp a b],
      exec i s = .next
        { s with status := .error .outOfBounds { code := 1, pc := s.pc, value := a.toNat, space := some .register } }) ∧
  (∀ (a b : Byte) (s : State), a.toNat < 8 → 8 ≤ b.toNat →
    ∀ i ∈ [Instr.add a b, .sub a b, .mul a b, .div a b, .cmp a b],
      exec i s = .next
        { s with status := .error .outOfBounds { code := 1, pc := s.pc, value := b.toNat, space := some .register } })

/-- R104, R172: DIV by a register that holds 0 ends the run in Error DivisionByZero. That nothing but the status changes is the
spec's decision D9, and that the record holds pc and the index b is D13 (log 9, DESIGN CHOICE). -/
def Obligations.ZeroDivisorFaults : Prop :=
  ∀ (a b : Byte) (s : State) (_ : a.toNat < 8) (hb : b.toNat < 8), s.reg ⟨b.toNat, hb⟩ = 0 →
    ∃ info : FaultInfo, info.pc = s.pc ∧ info.value = b.toNat ∧
      exec (.div a b) s = .next { s with status := .error .divisionByZero info }

/-- R171 case 3: PUSH and CALL with SP 0 record -1; RET with SP 255, POP of a register other than r7 with SP 255, and POP r7 of
the byte 255 record 256; nothing but the status changes (D7, log 6; D8 for r7, log 7; D9, log 9).
The record's fields are D13 (log 9). -/
def Obligations.StackPointerRangeFaults : Prop :=
  (∀ (r : Byte) (s : State), r.toNat < 8 → s.sp.toNat = 0 → ∀ i ∈ [Instr.push r, .call r],
    exec i s = .next
      { s with status := .error .outOfBounds { code := 1, pc := s.pc, value := -1, space := some .memory } }) ∧
  (∀ s : State, s.sp.toNat = 255 → exec .ret s = .next
      { s with status := .error .outOfBounds { code := 1, pc := s.pc, value := 256, space := some .memory } }) ∧
  (∀ (r : Byte) (s : State), r.toNat < 7 → s.sp.toNat = 255 → exec (.pop r) s = .next
      { s with status := .error .outOfBounds { code := 1, pc := s.pc, value := 256, space := some .memory } }) ∧
  (∀ s : State, (s.mem.read s.sp.toNat).toNat = 255 → exec (.pop 7) s = .next
      { s with status := .error .outOfBounds { code := 1, pc := s.pc, value := 256, space := some .memory } })

/-! What no instruction but the named ones does: the frames. -/

/-- R20, R23: an instruction changes no register but its destination and, for PUSH, POP, CALL and RET, SP. -/
def Obligations.RegisterFrame : Prop :=
  ∀ (i : Instr) (s t : State) (j : RegIdx), exec i s = .next t → writesReg i j = false → t.reg j = s.reg j

/-- R28: only CMP writes FL. -/
def Obligations.OnlyCmpWritesFlags : Prop :=
  ∀ (i : Instr) (s t : State), exec i s = .next t → (∀ a b, i ≠ .cmp a b) → t.flags = s.flags

/-- R43: no instruction but PUSH and CALL changes a byte of memory, and these no byte but the one at the SP they decrement to.
That they store nothing with SP 0, where SP does not wrap, is the spec's decision D7 (log 6, DESIGN CHOICE). -/
def Obligations.MemoryFrame : Prop :=
  ∀ (i : Instr) (s t : State), s.mem.wf = true → exec i s = .next t →
    (storesBelowSp i = false → ∀ a, t.mem.read a = s.mem.read a) ∧
      (storesBelowSp i = true → ∀ u, spDec s.pc s = .ok u → ∀ a, a ≠ u.sp.toNat → t.mem.read a = s.mem.read a) ∧
      (storesBelowSp i = true → s.sp.toNat = 0 → ∀ a, t.mem.read a = s.mem.read a)

/-- R32, R180: only PRN emits, one byte at the end; every step keeps all that was emitted, a faulting step included. -/
def Obligations.OnlyPrnEmits : Prop :=
  (∀ (i : Instr) (s t : State), exec i s = .next t →
    t.out = s.out ∨ ∃ (r : Byte) (h : r.toNat < 8), i = .prn r ∧ t.out = s.out ++ [s.reg ⟨r.toNat, h⟩]) ∧
  (∀ s t : State, step s = .next t → s.out <+: t.out)

/-- R80, R160: a step ends in Halted only by fetching HLT, and then changes nothing else.
That nothing else changes, pc included, is the spec's decision D14 (log 25, DESIGN CHOICE). -/
def Obligations.OnlyHltHalts : Prop :=
  ∀ s t : State, step s = .next t → t.status = .halted →
    s.mem.read s.pc = Opcode.hlt ∧ t = { s with status := .halted }

/-- R28: no instruction reads G or L. Two states that differ in G and L only step to states that differ in FL only, with the
same E. -/
def Obligations.OnlyEqualFlagIsRead : Prop :=
  ∀ (s t : State) (g l : Bool), step s = .next t →
    ∃ t', step { s with flags := { e := s.flags.e, g := g, l := l } } = .next t' ∧ t'.flags.e = t.flags.e ∧
      t' = { t with flags := t'.flags }

/-- R106: an ALU instruction that completes reads its two registers only: in another state where they hold the same it completes
with the same register result and the same flags; and it changes neither memory nor output, and pc by the loop only. -/
def Obligations.AluReadsOnlyItsOperands : Prop :=
  ∀ (i : Instr) (s s' t : State), isAlu i.opcode = true → s.status = .running → s'.status = .running →
    (∀ j : RegIdx, BitVec.ofNat 8 j.val ∈ i.operandBytes → s'.reg j = s.reg j) →
    exec i s = .next t → t.status = .running →
    ∃ t', exec i s' = .next t' ∧ t'.status = .running ∧ (∀ j, writesReg i j = true → t'.reg j = t.reg j) ∧
      ((∃ a b, i = .cmp a b) → t'.flags = t.flags) ∧ t.mem = s.mem ∧ t.out = s.out ∧ t.pc = s.pc + 3

/-! Memory and the memory interface (20_memory.md). -/

/-- R41, R42: inside 0..255 a write answers a state whose memory reads the byte written there and every other byte as before, and
nothing else changed, and a read answers the byte; outside, each raises OutOfBounds with the address. -/
def Obligations.MemoryReadsLastWrite : Prop :=
  ∀ (p : Nat) (a : Int) (v : Byte) (s : State), s.mem.wf = true →
    (0 ≤ a ∧ a ≤ 255 →
      memRead p a s = .ok (s.mem.read a.toNat) ∧
        ∃ t, memWrite p a v s = .ok t ∧ t = { s with mem := t.mem } ∧ memRead p a t = .ok v ∧
          ∀ b : Int, b ≠ a → memRead p b t = memRead p b s) ∧
    (¬(0 ≤ a ∧ a ≤ 255) →
      ∃ c : FaultCause, c.kind = .outOfBounds ∧ c.info.space = some .memory ∧ c.info.value = a ∧
        memRead p a s = .error c ∧ memWrite p a v s = .error c)

/-- R40: a memory is its 256 bytes. Two canonical memories that read the same at every address are the same data (log 16). -/
def Obligations.CanonicalMemoryIsItsBytes : Prop :=
  ∀ m m' : Memory, m.wf = true → m'.wf = true → (∀ a, a < 256 → m.read a = m'.read a) → m = m'

/-- R53, R206: the byte a PUSH or a CALL stores is the byte the very next fetch of its address reads, as operand or as opcode. For
PUSH r7 that byte is the decremented SP, the spec's decision D8 (log 7, DESIGN CHOICE). -/
def Obligations.FetchSeesPushedByte : Prop :=
  (∀ (r : Byte) (s t : State) (h : r.toNat < 8) (p : Nat), s.mem.wf = true → exec (.push r) s = .next t →
    1 ≤ s.sp.toNat → p ≤ 253 →
    fetch { t with pc := p } =
      .ok (if p = t.sp.toNat then t.reg ⟨r.toNat, h⟩ else s.mem.read p,
        if p + 1 = t.sp.toNat then t.reg ⟨r.toNat, h⟩ else s.mem.read (p + 1),
        if p + 2 = t.sp.toNat then t.reg ⟨r.toNat, h⟩ else s.mem.read (p + 2))) ∧
  (∀ (r : Byte) (s t : State) (p : Nat), r.toNat < 8 → s.mem.wf = true → exec (.call r) s = .next t → 1 ≤ s.sp.toNat →
    s.pc ≤ 253 → p ≤ 253 →
    ∃ b : Byte, b.toNat = s.pc + 2 ∧
      fetch { t with pc := p } =
        .ok (if p = t.sp.toNat then b else s.mem.read p, if p + 1 = t.sp.toNat then b else s.mem.read (p + 1),
          if p + 2 = t.sp.toNat then b else s.mem.read (p + 2)))

/-- R43, R49: the memory after a step is the memory before it with the step's accesses made. The access list is D26 (log 18). -/
def Obligations.AccessesExplainMemory : Prop :=
  ∀ s t : State, step s = .next t → t.mem = Memory.replay (stepAccesses s) s.mem

/-- R49: a step's accesses are the three fetch reads in order, then at most one more, and every address is in memory (D26, log 18).
That all three reads are made is D11 (log 6). -/
def Obligations.FetchReadsComeFirst : Prop :=
  ∀ s : State, s.status = .running → s.pc ≤ 253 →
    ∃ data, stepAccesses s = [.read s.pc, .read (s.pc + 1), .read (s.pc + 2)] ++ data ∧ data.length ≤ 1 ∧
      (∀ a, Access.read a ∈ data → a ≤ 255) ∧ ∀ a v, Access.write a v ∈ data → a ≤ 255

/-! Laws over two instructions. -/

/-- R133: PUSH then POP of the same register leaves every register, SP included, as before the PUSH, for every register and every
SP but 0 (for r7 by D8). (D8 is log 7.) -/
def Obligations.PushPopRestores : Prop :=
  ∀ (r : Byte) (s : State), r.toNat < 8 → s.status = .running → s.mem.wf = true → 1 ≤ s.sp.toNat →
    ∃ t u, exec (.push r) s = .next t ∧ exec (.pop r) t = .next u ∧ u.regs = s.regs ∧ u.pc = s.pc + 4

/-- R142: after a CALL, a RET in any state with the same SP and the same byte there resumes at pc + 2 with SP as before. -/
def Obligations.CallRetResumes : Prop :=
  ∀ (r : Byte) (s t u : State), r.toNat < 8 → s.mem.wf = true → s.pc ≤ 253 → 1 ≤ s.sp.toNat →
    exec (.call r) s = .next t → u.sp = t.sp → u.mem.read u.sp.toNat = t.mem.read t.sp.toNat →
    ∃ v, exec .ret u = .next v ∧ v.pc = s.pc + 2 ∧ v.sp = s.sp

/-! A run (R90, R210). -/

/-- A run that ends has the status Halted or Error, and a larger budget gives the same end (D24: a run the budget stops has no
end state). (D24 is log 17.) -/
def Obligations.RunEndsInHaltedOrError : Prop :=
  ∀ (n : Nat) (s t : State), runToEnd n s = some t →
    (t.status = .halted ∨ ∃ kind info, t.status = .error kind info) ∧ ∀ k, runToEnd (n + k) s = some t

/-- R90: a JMP to its own address never ends. -/
def Obligations.JumpToItselfNeverEnds : Prop :=
  ∀ (r : Byte) (s : State) (h : r.toNat < 8) (n : Nat), s.status = .running → s.pc ≤ 253 →
    s.mem.read s.pc = Opcode.jmp → s.mem.read (s.pc + 1) = r → (s.reg ⟨r.toNat, h⟩).toNat = s.pc → runToEnd n s = none

/-! Loading, assembly and the host's side (30_encoding.md section 5, 70_reset_and_hazards.md). -/

/-- R55: memory is 0x00 before loading; the loader puts the image bytes at 0, 1, 2, ...; every other byte stays 0x00. -/
def Obligations.ImageBytesLieFromZero : Prop :=
  (∀ a, State.reset.mem.read a = 0x00) ∧
    ∀ image : List Byte, image.length ≤ 256 →
      ∃ s, loadImage image = .ok s ∧ (∀ a, s.mem.read a = image.getD a 0x00) ∧ s = { State.reset with mem := s.mem }

/-- R201: an image of more than 256 bytes cannot be loaded (D22, log 26). -/
def Obligations.OversizeImageIsRefused : Prop :=
  ∀ image : List Byte, 256 < image.length → loadImage image = .error .imageTooLarge

/-- R72, R202: the image text of a list of bytes, one byte a line, is read back as those bytes. A line ends at a
line feed (log 13, PRESUMED). -/
def Obligations.ImageTextReadsBack : Prop :=
  ∀ bs : List Byte, parseImage (imageText bs) = .ok bs

/-- R203: a significant payload with fewer than 8 characters, or with a character other than 0 and 1 among its first 8, makes the
reading of the lines MalformedInstruction, and starting from a text of these lines fails with it (D22, log 26). That this error is
reported also where the lines before it hold more than 256 bytes is log 27 (DESIGN CHOICE), and the white space a payload is
trimmed of and the line end are logs 12 and 13 (PRESUMED). -/
def Obligations.MalformedLineFailsTheLoad : Prop :=
  ∀ (before after : List Text) (line : Text) (bs : List Byte) (c : Char) (rest : Text),
    parseLines before = .ok bs → payload line = c :: rest → isBinDigit c = true →
    ((c :: rest).length < 8 ∨ ∃ d ∈ (c :: rest).take 8, isBinDigit d = false) →
    parseLines (before ++ line :: after) = .error .malformedInstruction ∧
      ∀ (path text : Text) (files : List (Text × Text)), files.lookup path = some text →
        splitAtChar '\n' text = before ++ line :: after → boot [path] files = .error .malformedInstruction

/-- R70, R71: the assembly of an instruction is assembled back to it. The syntax is D23 (log 19). -/
def Obligations.AssemblyReadsBack : Prop :=
  ∀ (i : Instr) (t : Text), instrText i = some t → parseInstr t = some i

/-- R209: an output byte is printed in decimal, 1 to 3 digits. That the host prints it is D20 (log 26). -/
def Obligations.OutputIsPrintedInDecimal : Prop :=
  ∀ v : Byte, digitsValue 10 0 (decimal v) = some v.toNat ∧ 1 ≤ (decimal v).length ∧ (decimal v).length ≤ 3 ∧
    ((decimal v).head? = some '0' → v = 0)

/-- R209: on Halted the exit value is 0 and there is no diagnostic; on Error it is not 0, whatever the free value is (log 15), and
the diagnostic names the kind and info; a run that has not ended has no report (R210). The decimal lines are D20 (log 26). -/
def Obligations.ReportFollowsStatus : Prop :=
  ∀ s : State,
    (s.status = .halted → report s = some { lines := s.out.map decimal, exit := 0, diagnostic := none }) ∧
      (∀ kind info, s.status = .error kind info →
        ∃ code, code ≠ 0 ∧ report s = some { lines := s.out.map decimal, exit := code, diagnostic := some ⟨kind, info⟩ }) ∧
      (s.status = .running → report s = none)
end

