-- ==== Sys2Proof/Laws/State.lean ====
section
/-! SUPPORT. The fields of every update of the state, so that no proof unfolds a record update. -/

namespace Sys2Proof
namespace Machine

variable (s : State) (i j : RegIdx) (v : Byte) (m : Memory) (p : Nat) (f : Flags) (c : FaultCause)

@[simp] theorem setMem_mem : (s.setMem m).mem = m := rfl
@[simp] theorem setMem_regs : (s.setMem m).regs = s.regs := rfl
@[simp] theorem setMem_reg : (s.setMem m).reg i = s.reg i := rfl
@[simp] theorem setMem_sp : (s.setMem m).sp = s.sp := rfl
@[simp] theorem setMem_pc : (s.setMem m).pc = s.pc := rfl
@[simp] theorem setMem_flags : (s.setMem m).flags = s.flags := rfl
@[simp] theorem setMem_status : (s.setMem m).status = s.status := rfl
@[simp] theorem setMem_out : (s.setMem m).out = s.out := rfl

@[simp] theorem setReg_mem : (s.setReg i v).mem = s.mem := rfl
@[simp] theorem setReg_regs : (s.setReg i v).regs = s.regs.set i v := rfl
@[simp] theorem setReg_pc : (s.setReg i v).pc = s.pc := rfl
@[simp] theorem setReg_flags : (s.setReg i v).flags = s.flags := rfl
@[simp] theorem setReg_status : (s.setReg i v).status = s.status := rfl
@[simp] theorem setReg_out : (s.setReg i v).out = s.out := rfl

/-- The registers are independent (R20): a write changes the register written and no other. -/
theorem setReg_reg : (s.setReg i v).reg j = if i = j then v else s.reg j := by
  simp only [State.reg, State.setReg, Fin.getElem_fin, Vector.getElem_set, Fin.ext_iff]

@[simp] theorem setReg_reg_same : (s.setReg i v).reg i = v := by simp [setReg_reg]

theorem setReg_reg_ne {s : State} {i j : RegIdx} {v : Byte} (h : j ≠ i) : (s.setReg i v).reg j = s.reg j := by
  simp [setReg_reg, h.symm]

@[simp] theorem setReg_sp_same : (s.setReg Config.spIndex v).sp = v := setReg_reg_same s _ v

/-- Two register files that hold the same values are the same. -/
theorem regs_ext {s t : State} (h : ∀ k, t.reg k = s.reg k) : t.regs = s.regs :=
  Vector.ext fun k hk => h ⟨k, hk⟩

@[simp] theorem setReg_setReg : (s.setReg i v).setReg i w = s.setReg i w := by
  simp [State.setReg]

@[simp] theorem setReg_self : s.setReg i (s.reg i) = s := by
  simp [State.setReg, State.reg]

@[simp] theorem setPc_mem : (s.setPc p).mem = s.mem := rfl
@[simp] theorem setPc_regs : (s.setPc p).regs = s.regs := rfl
@[simp] theorem setPc_reg : (s.setPc p).reg i = s.reg i := rfl
@[simp] theorem setPc_sp : (s.setPc p).sp = s.sp := rfl
@[simp] theorem setPc_pc : (s.setPc p).pc = p := rfl
@[simp] theorem setPc_flags : (s.setPc p).flags = s.flags := rfl
@[simp] theorem setPc_status : (s.setPc p).status = s.status := rfl
@[simp] theorem setPc_out : (s.setPc p).out = s.out := rfl

@[simp] theorem setFlags_mem : (s.setFlags f).mem = s.mem := rfl
@[simp] theorem setFlags_regs : (s.setFlags f).regs = s.regs := rfl
@[simp] theorem setFlags_reg : (s.setFlags f).reg i = s.reg i := rfl
@[simp] theorem setFlags_sp : (s.setFlags f).sp = s.sp := rfl
@[simp] theorem setFlags_pc : (s.setFlags f).pc = s.pc := rfl
@[simp] theorem setFlags_flags : (s.setFlags f).flags = f := rfl
@[simp] theorem setFlags_status : (s.setFlags f).status = s.status := rfl
@[simp] theorem setFlags_out : (s.setFlags f).out = s.out := rfl

@[simp] theorem emit_mem : (s.emit v).mem = s.mem := rfl
@[simp] theorem emit_regs : (s.emit v).regs = s.regs := rfl
@[simp] theorem emit_reg : (s.emit v).reg i = s.reg i := rfl
@[simp] theorem emit_sp : (s.emit v).sp = s.sp := rfl
@[simp] theorem emit_pc : (s.emit v).pc = s.pc := rfl
@[simp] theorem emit_flags : (s.emit v).flags = s.flags := rfl
@[simp] theorem emit_status : (s.emit v).status = s.status := rfl
@[simp] theorem emit_out : (s.emit v).out = s.out ++ [v] := rfl

@[simp] theorem halt_mem : s.halt.mem = s.mem := rfl
@[simp] theorem halt_regs : s.halt.regs = s.regs := rfl
@[simp] theorem halt_reg : s.halt.reg i = s.reg i := rfl
@[simp] theorem halt_sp : s.halt.sp = s.sp := rfl
@[simp] theorem halt_pc : s.halt.pc = s.pc := rfl
@[simp] theorem halt_flags : s.halt.flags = s.flags := rfl
@[simp] theorem halt_status : s.halt.status = .halted := rfl
@[simp] theorem halt_out : s.halt.out = s.out := rfl

@[simp] theorem takeFault_mem : (takeFault c s).mem = s.mem := rfl
@[simp] theorem takeFault_regs : (takeFault c s).regs = s.regs := rfl
@[simp] theorem takeFault_reg : (takeFault c s).reg i = s.reg i := rfl
@[simp] theorem takeFault_sp : (takeFault c s).sp = s.sp := rfl
@[simp] theorem takeFault_pc : (takeFault c s).pc = s.pc := rfl
@[simp] theorem takeFault_flags : (takeFault c s).flags = s.flags := rfl
@[simp] theorem takeFault_status : (takeFault c s).status = .error c.kind c.info := rfl
@[simp] theorem takeFault_out : (takeFault c s).out = s.out := rfl

end Machine
end Sys2Proof
end

