-- ==== Sys2Proof/Laws/Memory.lean ====
section
/-! SUPPORT. The laws of memory: a read after a write, and that every memory operation keeps the canonical form. -/

namespace Sys2Proof
namespace Machine

/-- A canonical memory from `lo` up holds the erased byte below `lo`. -/
theorem Memory.read_below {m : Memory} {lo a : Nat} (h : Memory.wfFrom lo m = true) (ha : a < lo) :
    Memory.read m a = Config.erased := by
  induction m generalizing lo with
  | nil => rfl
  | cons p rest ih =>
    obtain ⟨b, w⟩ := p
    simp only [Memory.wfFrom, Bool.and_eq_true, decide_eq_true_eq] at h
    have hne : a ≠ b := by omega
    simp only [Memory.read, hne, if_false]
    exact ih h.2 (by omega)

theorem Memory.wfFrom_mono {m : Memory} {lo lo' : Nat} (h : Memory.wfFrom lo m = true) (hl : lo' ≤ lo) :
    Memory.wfFrom lo' m = true := by
  cases m with
  | nil => rfl
  | cons p rest =>
    simp only [Memory.wfFrom, Bool.and_eq_true, decide_eq_true_eq] at h ⊢
    exact ⟨⟨⟨by omega, h.1.1.2⟩, h.1.2⟩, h.2⟩

theorem Memory.write_wfFrom {m : Memory} {lo a : Nat} {v : Byte} (h : Memory.wfFrom lo m = true) (hlo : lo ≤ a)
    (ha : a < 256) : Memory.wfFrom lo (m.write a v) = true := by
  induction m generalizing lo with
  | nil =>
    simp only [Memory.write]
    split_ifs with hv
    · rfl
    · simp only [Memory.wfFrom, Bool.and_eq_true, decide_eq_true_eq]
      exact ⟨⟨⟨hlo, ha⟩, hv⟩, trivial⟩
  | cons p rest ih =>
    obtain ⟨b, w⟩ := p
    simp only [Memory.wfFrom, Bool.and_eq_true, decide_eq_true_eq] at h
    obtain ⟨⟨⟨h1, h2⟩, h3⟩, h4⟩ := h
    simp only [Memory.write]
    split_ifs with hab hv he hv
    · simp only [Memory.wfFrom, Bool.and_eq_true, decide_eq_true_eq]
      exact ⟨⟨⟨h1, h2⟩, h3⟩, h4⟩
    · simp only [Memory.wfFrom, Bool.and_eq_true, decide_eq_true_eq]
      exact ⟨⟨⟨hlo, ha⟩, hv⟩, ⟨⟨by omega, h2⟩, h3⟩, h4⟩
    · exact Memory.wfFrom_mono h4 (by omega)
    · subst he
      simp only [Memory.wfFrom, Bool.and_eq_true, decide_eq_true_eq]
      exact ⟨⟨⟨h1, h2⟩, hv⟩, h4⟩
    · simp only [Memory.wfFrom, Bool.and_eq_true, decide_eq_true_eq]
      exact ⟨⟨⟨h1, h2⟩, h3⟩, ih h4 (by omega)⟩

/-- A write inside memory keeps the canonical form. -/
theorem Memory.write_wf {m : Memory} {a : Nat} {v : Byte} (h : m.wf = true) (ha : a < 256) : (m.write a v).wf = true :=
  Memory.write_wfFrom h (Nat.zero_le a) ha

theorem Memory.read_write_from {m : Memory} {lo a : Nat} {v : Byte} (h : Memory.wfFrom lo m = true) (b : Nat) :
    (m.write a v).read b = if b = a then v else m.read b := by
  induction m generalizing lo with
  | nil =>
    by_cases hv : v = Config.erased
    · subst hv
      simp only [Memory.write, if_true, Memory.read, ite_self]
    · simp only [Memory.write, if_neg hv, Memory.read]
  | cons p rest ih =>
    obtain ⟨c, w⟩ := p
    simp only [Memory.wfFrom, Bool.and_eq_true, decide_eq_true_eq] at h
    have hbelow := @Memory.read_below rest (c + 1) b h.2
    have ih := ih h.2
    rcases Nat.lt_trichotomy a c with hac | rfl | hac
    · by_cases hv : v = Config.erased
      · subst hv
        simp only [Memory.write, if_pos hac, if_true]
        split_ifs with hb
        · subst hb
          simp only [Memory.read, if_neg (Nat.ne_of_lt hac)]
          exact hbelow (by omega)
        · rfl
      · simp only [Memory.write, if_pos hac, if_neg hv, Memory.read]
    · by_cases hv : v = Config.erased
      · subst hv
        simp only [Memory.write, lt_irrefl, if_false, if_true, Memory.read]
        split_ifs with hb
        · exact hbelow (by omega)
        · rfl
      · simp only [Memory.write, lt_irrefl, if_false, if_true, if_neg hv, Memory.read]
        split_ifs <;> rfl
    · simp only [Memory.write, if_neg (Nat.lt_asymm hac), if_neg (Nat.ne_of_gt hac), Memory.read, ih]
      by_cases hb : b = c
      · subst hb
        simp only [if_true, if_neg (Nat.ne_of_lt hac)]
      · simp only [if_neg hb]

/-- A read gives the byte of the most recent write to its address, and a write leaves every other address alone (R50). -/
theorem Memory.read_write {m : Memory} {a : Nat} {v : Byte} (h : m.wf = true) (b : Nat) :
    (m.write a v).read b = if b = a then v else m.read b :=
  Memory.read_write_from h b

/-- Placing bytes keeps the canonical form. -/
theorem Memory.place_wf {bs : List Byte} {a : Nat} {m : Memory} (h : m.wf = true) : (Memory.place a bs m).wf = true := by
  induction bs generalizing a m with
  | nil => exact h
  | cons v vs ih =>
    simp only [Memory.place]
    split_ifs with ha
    · exact ih (Memory.write_wf h (by omega))
    · exact ih h

/-- Loading bytes that end inside memory keeps the canonical form. -/
theorem Memory.load_wf {bs : List Byte} {a : Nat} {m : Memory} (h : m.wf = true) (ha : a + bs.length ≤ 256) :
    (Memory.load a bs m).wf = true := by
  induction bs generalizing a m with
  | nil => exact h
  | cons v vs ih =>
    simp only [List.length_cons] at ha
    exact ih (Memory.write_wf h (by omega)) (by omega)

/-- The memory after a list of accesses of memory is canonical. -/
theorem Memory.replay_wf {l : List Access} {m : Memory} (h : m.wf = true) (hl : ∀ a v, Access.write a v ∈ l → a < 256) :
    (Memory.replay l m).wf = true := by
  induction l generalizing m with
  | nil => exact h
  | cons x rest ih =>
    cases x with
    | read a => exact ih h fun b v hb => hl b v (List.mem_cons_of_mem _ hb)
    | write a v =>
      exact ih (Memory.write_wf h (hl a v List.mem_cons_self)) fun b w hb => hl b w (List.mem_cons_of_mem _ hb)

/-- The memory of the reset state is canonical. -/
theorem reset_mem_wf : State.reset.mem.wf = true := rfl

end Machine
end Sys2Proof
end

