-- ==== Sys2Proof/Laws/Ops.lean ====
section
/-! SUPPORT. What each shared operation can do, said once: the operand check, the memory primitives, the stack pointer, the PC
policy and the completion of an instruction. -/

namespace Sys2Proof
namespace Machine

@[simp] theorem except_bind_ok {ε α β : Type} (a : α) (f : α → Except ε β) : (Except.ok a >>= f) = f a := rfl
@[simp] theorem except_bind_error {ε α β : Type} (e : ε) (f : α → Except ε β) : ((Except.error e : Except ε α) >>= f) = .error e := rfl

/-! The operand check (R24). -/

theorem regOperand_ok {pc0 : Nat} {r : Byte} (h : r.toNat < 8) : regOperand pc0 r = .ok ⟨r.toNat, h⟩ := dif_pos h

theorem regOperand_bad {pc0 : Nat} {r : Byte} (h : 8 ≤ r.toNat) :
    regOperand pc0 r = .error (outOfBounds pc0 .register r.toNat) := dif_neg (by omega)

theorem regOperand_cases (pc0 : Nat) (r : Byte) :
    (∃ h : r.toNat < 8, regOperand pc0 r = .ok ⟨r.toNat, h⟩) ∨
      (8 ≤ r.toNat ∧ regOperand pc0 r = .error (outOfBounds pc0 .register r.toNat)) := by
  by_cases h : r.toNat < 8
  · exact .inl ⟨h, regOperand_ok h⟩
  · exact .inr ⟨by omega, regOperand_bad (by omega)⟩

theorem regPair_ok {pc0 : Nat} {a b : Byte} (ha : a.toNat < 8) (hb : b.toNat < 8) :
    regPair pc0 a b = .ok (⟨a.toNat, ha⟩, ⟨b.toNat, hb⟩) := by
  simp only [regPair, regOperand_ok ha, regOperand_ok hb, except_bind_ok]

/-- The pair check answers both registers, or raises OutOfBounds for the first byte that names none (R100, R177). -/
theorem regPair_cases (pc0 : Nat) (a b : Byte) :
    (∃ (ha : a.toNat < 8) (hb : b.toNat < 8), regPair pc0 a b = .ok (⟨a.toNat, ha⟩, ⟨b.toNat, hb⟩)) ∨
      (8 ≤ a.toNat ∧ regPair pc0 a b = .error (outOfBounds pc0 .register a.toNat)) ∨
      (a.toNat < 8 ∧ 8 ≤ b.toNat ∧ regPair pc0 a b = .error (outOfBounds pc0 .register b.toNat)) := by
  rcases regOperand_cases pc0 a with ⟨ha, ea⟩ | ⟨ha, ea⟩
  · rcases regOperand_cases pc0 b with ⟨hb, eb⟩ | ⟨hb, eb⟩
    · exact .inl ⟨ha, hb, regPair_ok ha hb⟩
    · exact .inr (.inr ⟨ha, hb, by simp only [regPair, ea, eb, except_bind_ok, except_bind_error]⟩)
  · exact .inr (.inl ⟨ha, by simp only [regPair, ea, except_bind_error]⟩)

/-! The memory primitives (R41, R42). A byte is always an address. -/

theorem byte_in_memory (v : Byte) : (0 : Int) ≤ (v.toNat : Int) ∧ (v.toNat : Int) ≤ 255 := by
  have := v.isLt
  omega

theorem memRead_nat {pc0 a : Nat} {s : State} (h : a ≤ 255) : memRead pc0 a s = .ok (s.mem.read a) := by
  simp only [memRead]
  rw [if_pos (by omega)]
  rfl

theorem memRead_byte (pc0 : Nat) (v : Byte) (s : State) : memRead pc0 v.toNat s = .ok (s.mem.read v.toNat) :=
  memRead_nat (by have := v.isLt; omega)

theorem memRead_out {pc0 : Nat} {a : Int} {s : State} (h : a < 0 ∨ 255 < a) :
    memRead pc0 a s = .error (outOfBounds pc0 .memory a) := if_neg (by omega)

theorem memWrite_nat {pc0 a : Nat} {v : Byte} {s : State} (h : a ≤ 255) :
    memWrite pc0 a v s = .ok (s.setMem (s.mem.write a v)) := by
  simp only [memWrite]
  rw [if_pos (by omega)]
  rfl

theorem memWrite_byte (pc0 : Nat) (a v : Byte) (s : State) :
    memWrite pc0 a.toNat v s = .ok (s.setMem (s.mem.write a.toNat v)) :=
  memWrite_nat (by have := a.isLt; omega)

theorem memWrite_out {pc0 : Nat} {a : Int} {v : Byte} {s : State} (h : a < 0 ∨ 255 < a) :
    memWrite pc0 a v s = .error (outOfBounds pc0 .memory a) := if_neg (by omega)

/-! The stack pointer (R130). -/

theorem byte_pred {x : Byte} (h : 1 ≤ x.toNat) : (x - 1).toNat + 1 = x.toNat := by
  have h1 : (1 : Byte).toNat = 1 := rfl
  have := x.isLt
  simp only [BitVec.toNat_sub, h1]
  omega

theorem byte_succ {x : Byte} (h : x.toNat ≤ 254) : (x + 1).toNat = x.toNat + 1 := by
  have h1 : (1 : Byte).toNat = 1 := rfl
  simp only [BitVec.toNat_add, h1]
  omega

theorem spDec_ok {pc0 : Nat} {s : State} (h : 1 ≤ s.sp.toNat) : spDec pc0 s = .ok (s.setReg Config.spIndex (s.sp - 1)) := by
  have hv : BitVec.ofInt 8 ((s.sp.toNat : Int) - 1) = s.sp - 1 := by
    have h1 : (1 : Byte).toNat = 1 := rfl
    have := s.sp.isLt
    apply BitVec.eq_of_toNat_eq
    simp only [BitVec.toNat_ofInt, BitVec.toNat_sub, h1]
    omega
  simp only [spDec]
  rw [if_neg (by omega), hv]

theorem spDec_zero {pc0 : Nat} {s : State} (h : s.sp.toNat = 0) : spDec pc0 s = .error (outOfBounds pc0 .memory (-1)) := by
  simp only [spDec, h]
  rfl

theorem spDec_cases (pc0 : Nat) (s : State) :
    (1 ≤ s.sp.toNat ∧ spDec pc0 s = .ok (s.setReg Config.spIndex (s.sp - 1))) ∨
      (s.sp.toNat = 0 ∧ spDec pc0 s = .error (outOfBounds pc0 .memory (-1))) := by
  by_cases h : s.sp.toNat = 0
  · exact .inr ⟨h, spDec_zero h⟩
  · exact .inl ⟨by omega, spDec_ok (by omega)⟩

theorem spInc_ok {pc0 : Nat} {s : State} (h : s.sp.toNat ≤ 254) :
    spInc pc0 s = .ok (s.setReg Config.spIndex (s.sp + 1)) := by
  have hv : BitVec.ofInt 8 ((s.sp.toNat : Int) + 1) = s.sp + 1 := by
    have h1 : (1 : Byte).toNat = 1 := rfl
    apply BitVec.eq_of_toNat_eq
    simp only [BitVec.toNat_ofInt, BitVec.toNat_add, h1]
    omega
  simp only [spInc]
  rw [if_neg (by omega), hv]

theorem spInc_top {pc0 : Nat} {s : State} (h : s.sp.toNat = 255) : spInc pc0 s = .error (outOfBounds pc0 .memory 256) := by
  simp only [spInc, h]
  rfl

theorem spInc_cases (pc0 : Nat) (s : State) :
    (s.sp.toNat ≤ 254 ∧ spInc pc0 s = .ok (s.setReg Config.spIndex (s.sp + 1))) ∨
      (s.sp.toNat = 255 ∧ spInc pc0 s = .error (outOfBounds pc0 .memory 256)) := by
  by_cases h : s.sp.toNat = 255
  · exact .inr ⟨h, spInc_top h⟩
  · exact .inl ⟨by have := s.sp.isLt; omega, spInc_ok (by have := s.sp.isLt; omega)⟩

/-! The reduction to a byte (R9). -/

theorem u8_toNat (v : Int) : ((u8 v).toNat : Int) = v % 256 := by
  have h : (0 : Int) ≤ v % 256 := by omega
  simp only [u8, BitVec.toNat_ofInt]
  simpa using h

theorem u8_ofNat (n : Nat) : u8 (n : Int) = BitVec.ofNat 8 n := by
  apply BitVec.eq_of_toNat_eq
  have := u8_toNat n
  simp only [BitVec.toNat_ofNat]
  omega

/-! The flags of a comparison (R105). -/

/-- Exactly one of E, G and L is set. -/
theorem compareFlags_cases (x y : Byte) :
    (x = y ∧ compareFlags x y = ⟨true, false, false⟩) ∨ (x.toNat > y.toNat ∧ compareFlags x y = ⟨false, true, false⟩) ∨
      (x.toNat < y.toNat ∧ compareFlags x y = ⟨false, false, true⟩) := by
  rcases Nat.lt_trichotomy x.toNat y.toNat with h | h | h
  · exact .inr (.inr ⟨h, by simp only [compareFlags]; simp; omega⟩)
  · exact .inl ⟨BitVec.eq_of_toNat_eq h, by simp [compareFlags, h]⟩
  · exact .inr (.inl ⟨h, by simp only [compareFlags]; simp; omega⟩)

theorem compareFlags_atMostOne (x y : Byte) : (compareFlags x y).atMostOne = true := by
  rcases compareFlags_cases x y with ⟨_, h⟩ | ⟨_, h⟩ | ⟨_, h⟩ <;> rw [h] <;> rfl

/-! The PC policy (R84, R85) and the completion of an instruction (R86, R87). -/

@[simp] theorem autoAdvance_mem (ir : Byte) (p : Nat) (s : State) : (autoAdvance ir p s).mem = s.mem := by
  simp only [autoAdvance]; split_ifs <;> rfl
@[simp] theorem autoAdvance_regs (ir : Byte) (p : Nat) (s : State) : (autoAdvance ir p s).regs = s.regs := by
  simp only [autoAdvance]; split_ifs <;> rfl
@[simp] theorem autoAdvance_reg (ir : Byte) (p : Nat) (s : State) (i : RegIdx) : (autoAdvance ir p s).reg i = s.reg i := by
  simp only [autoAdvance]; split_ifs <;> rfl
@[simp] theorem autoAdvance_sp (ir : Byte) (p : Nat) (s : State) : (autoAdvance ir p s).sp = s.sp := by
  simp only [autoAdvance]; split_ifs <;> rfl
@[simp] theorem autoAdvance_flags (ir : Byte) (p : Nat) (s : State) : (autoAdvance ir p s).flags = s.flags := by
  simp only [autoAdvance]; split_ifs <;> rfl
@[simp] theorem autoAdvance_status (ir : Byte) (p : Nat) (s : State) : (autoAdvance ir p s).status = s.status := by
  simp only [autoAdvance]; split_ifs <;> rfl
@[simp] theorem autoAdvance_out (ir : Byte) (p : Nat) (s : State) : (autoAdvance ir p s).out = s.out := by
  simp only [autoAdvance]; split_ifs <;> rfl

theorem autoAdvance_running {ir : Byte} {p : Nat} {s : State} (h : s.status = .running) (hp : setsPc ir = false) :
    autoAdvance ir p s = s.setPc (pastInstr ir p) := if_pos ⟨h, hp⟩

theorem autoAdvance_setsPc {ir : Byte} {p : Nat} {s : State} (hp : setsPc ir = true) : autoAdvance ir p s = s :=
  if_neg (by simp [hp])

theorem autoAdvance_ended {ir : Byte} {p : Nat} {s : State} (h : s.status ≠ .running) : autoAdvance ir p s = s :=
  if_neg (fun k => h k.1)

theorem complete_ok (ir : Byte) (s t : State) : complete ir s (.ok t) = .next (autoAdvance ir s.pc t) := rfl
theorem complete_error (ir : Byte) (s : State) (c : FaultCause) : complete ir s (.error c) = .next (takeFault c s) := rfl

/-- Completing an instruction always answers a next state: the handler's through the PC policy, or the fault taken in `s`. -/
theorem complete_cases {ir : Byte} {s t : State} {r : Except FaultCause State} (h : complete ir s r = .next t) :
    (∃ u, r = .ok u ∧ t = autoAdvance ir s.pc u) ∨ (∃ c, r = .error c ∧ t = takeFault c s) := by
  cases r with
  | ok u => exact .inl ⟨u, rfl, by simpa [complete_ok] using h.symm⟩
  | error c => exact .inr ⟨c, rfl, by simpa [complete_error] using h.symm⟩

end Machine
end Sys2Proof
end

