-- ==== Sys2Proof/Laws/Step.lean ====
section
/-! SUPPORT. What a step can do, said once: the fetch, the decode, the dispatch and the step itself. -/

namespace Sys2Proof
namespace Machine

/-- The fetch reads three bytes when all three addresses are in memory (R81). -/
theorem fetch_ok {s : State} (h : s.pc ≤ 253) :
    fetch s = .ok (s.mem.read s.pc, s.mem.read (s.pc + 1), s.mem.read (s.pc + 2)) := by
  have h1 : memRead s.pc ((s.pc : Int) + 1) s = .ok (s.mem.read (s.pc + 1)) := memRead_nat (a := s.pc + 1) (by omega)
  have h2 : memRead s.pc ((s.pc : Int) + 2) s = .ok (s.mem.read (s.pc + 2)) := memRead_nat (a := s.pc + 2) (by omega)
  simp only [fetch, memRead_nat (a := s.pc) (by omega : s.pc ≤ 255), h1, h2, except_bind_ok]

/-- Otherwise it raises OutOfBounds of the first address outside memory (R81, R171). -/
theorem fetch_out {s : State} (h : 253 < s.pc) :
    fetch s = .error (outOfBounds s.pc .memory (max s.pc 256)) := by
  rcases Nat.lt_or_ge 255 s.pc with h0 | h0
  · have e : max (s.pc : Int) 256 = s.pc := by omega
    simp only [fetch, memRead_out (a := (s.pc : Int)) (Or.inr (by omega)), except_bind_error, e]
  · rcases Nat.lt_or_ge 254 s.pc with h1 | h1
    · have e : max (s.pc : Int) 256 = (s.pc : Int) + 1 := by omega
      simp only [fetch, memRead_nat (a := s.pc) h0, memRead_out (a := (s.pc : Int) + 1) (Or.inr (by omega)), except_bind_ok,
        except_bind_error, e]
    · have e : max (s.pc : Int) 256 = (s.pc : Int) + 2 := by omega
      have h2 : memRead s.pc ((s.pc : Int) + 1) s = .ok (s.mem.read (s.pc + 1)) := memRead_nat (a := s.pc + 1) (by omega)
      simp only [fetch, memRead_nat (a := s.pc) h0, h2, memRead_out (a := (s.pc : Int) + 2) (Or.inr (by omega)),
        except_bind_ok, except_bind_error, e]

/-- A fetch that answers had its three addresses in memory. -/
theorem fetch_eq_ok {s : State} {x : Byte × Byte × Byte} (h : fetch s = .ok x) :
    s.pc ≤ 253 ∧ x = (s.mem.read s.pc, s.mem.read (s.pc + 1), s.mem.read (s.pc + 2)) := by
  rcases Nat.lt_or_ge 253 s.pc with hp | hp
  · rw [fetch_out hp] at h
    cases h
  · rw [fetch_ok hp] at h
    cases h
    exact ⟨hp, rfl⟩

/-- Everything a step can do: it is asked of an ended run; or the fetch faults; or the decode does; or an instruction runs. -/
theorem step_cases (s : State) :
    (s.status ≠ .running ∧ step s = .fault .runEnded) ∨
      (s.status = .running ∧ 253 < s.pc ∧ step s = .next (takeFault (outOfBounds s.pc .memory (max s.pc 256)) s)) ∨
      (∃ ir op1 op2 e, s.status = .running ∧ s.pc ≤ 253 ∧ fetch s = .ok (ir, op1, op2) ∧ decode ir op1 op2 = .error e ∧
        step s = .next (takeFault (decodeCause s.pc e) s)) ∨
      (∃ ir op1 op2 i, s.status = .running ∧ s.pc ≤ 253 ∧ fetch s = .ok (ir, op1, op2) ∧ decode ir op1 op2 = .ok i ∧
        step s = exec i s) := by
  by_cases hs : s.status = .running
  · rcases Nat.lt_or_ge 253 s.pc with hp | hp
    · exact .inr (.inl ⟨hs, hp, by simp only [step, nextInstr, if_pos hs, fetch_out hp]⟩)
    · have hf := fetch_ok hp
      cases hd : decode (s.mem.read s.pc) (s.mem.read (s.pc + 1)) (s.mem.read (s.pc + 2)) with
      | error e => exact .inr (.inr (.inl ⟨_, _, _, e, hs, hp, hf, hd, by simp only [step, nextInstr, if_pos hs, hf, hd]⟩))
      | ok i => exact .inr (.inr (.inr ⟨_, _, _, i, hs, hp, hf, hd, by simp only [step, nextInstr, if_pos hs, hf, hd]⟩))
  · exact .inl ⟨hs, by simp only [step, nextInstr, if_neg hs]⟩

/-- Every instruction ends through `complete` with its own opcode. -/
theorem exec_complete (i : Instr) (s : State) : ∃ r, exec i s = complete i.opcode s r := by
  cases i <;>
    simp only [exec, Instr.opcode, execHlt, execLdi, execPrn, execPush, execPop, execCall, execRet, execJmp, execJeq, execJne,
      execAdd, execSub, execMul, execDiv, execCmp] <;>
    exact ⟨_, rfl⟩

/-- So it always answers a next state. -/
theorem exec_next (i : Instr) (s : State) : ∃ t, exec i s = .next t := by
  obtain ⟨r, hr⟩ := exec_complete i s
  cases r with
  | ok u => exact ⟨_, hr⟩
  | error c => exact ⟨_, hr⟩

/-! What the decoder answers (R62). -/

theorem decodeAlu_some {ir a b : Byte} {i : Instr} (h : decodeAlu ir a b = some i) :
    i.opcode = ir ∧ i.operandBytes = [a, b] := by
  unfold decodeAlu at h
  split_ifs at h with h1 h2 h3 h4 h5
  · cases h; exact ⟨h1.symm, rfl⟩
  · cases h; exact ⟨h2.symm, rfl⟩
  · cases h; exact ⟨h3.symm, rfl⟩
  · cases h; exact ⟨h4.symm, rfl⟩
  · cases h; exact ⟨h5.symm, rfl⟩

theorem decodeHandler_some {ir op1 op2 : Byte} {i : Instr} (h : decodeHandler ir op1 op2 = some i) :
    i.opcode = ir ∧ i.operandBytes = [op1, op2].take i.operandBytes.length := by
  unfold decodeHandler at h
  split_ifs at h with h1 h2 h3 h4 h5 h6 h7 h8 h9 h10
  · cases h; exact ⟨h1.symm, rfl⟩
  · cases h; exact ⟨h2.symm, rfl⟩
  · cases h; exact ⟨h3.symm, rfl⟩
  · cases h; exact ⟨h4.symm, rfl⟩
  · cases h; exact ⟨h5.symm, rfl⟩
  · cases h; exact ⟨h6.symm, rfl⟩
  · cases h; exact ⟨h7.symm, rfl⟩
  · cases h; exact ⟨h8.symm, rfl⟩
  · cases h; exact ⟨h9.symm, rfl⟩
  · cases h; exact ⟨h10.symm, rfl⟩

/-- Decoding takes the ALU path or the handler path, and rejects on each under its own name. -/
theorem decode_cases (ir op1 op2 : Byte) :
    (isAlu ir = true ∧ ((∃ i, decodeAlu ir op1 op2 = some i ∧ decode ir op1 op2 = .ok i) ∨
        (decodeAlu ir op1 op2 = none ∧ decode ir op1 op2 = .error (.unsupportedOperation ir)))) ∨
      (isAlu ir = false ∧ ((∃ i, decodeHandler ir op1 op2 = some i ∧ decode ir op1 op2 = .ok i) ∨
        (decodeHandler ir op1 op2 = none ∧ decode ir op1 op2 = .error (.unknownOpcode ir)))) := by
  cases hb : isAlu ir with
  | true =>
    refine .inl ⟨rfl, ?_⟩
    cases hd : decodeAlu ir op1 op2 with
    | none => exact .inr ⟨rfl, by simp only [decode, hb, if_true, hd]⟩
    | some i => exact .inl ⟨i, rfl, by simp only [decode, hb, if_true, hd]⟩
  | false =>
    refine .inr ⟨rfl, ?_⟩
    cases hd : decodeHandler ir op1 op2 with
    | none => exact .inr ⟨rfl, by simp only [decode, hb, Bool.false_eq_true, if_false, hd]⟩
    | some i => exact .inl ⟨i, rfl, by simp only [decode, hb, Bool.false_eq_true, if_false, hd]⟩

/-- A decoded instruction has the opcode that was fetched. -/
theorem decode_opcode {ir op1 op2 : Byte} {i : Instr} (h : decode ir op1 op2 = .ok i) : i.opcode = ir := by
  rcases decode_cases ir op1 op2 with ⟨_, ⟨j, hj, e⟩ | ⟨_, e⟩⟩ | ⟨_, ⟨j, hj, e⟩ | ⟨_, e⟩⟩ <;> rw [e] at h <;> cases h
  · exact (decodeAlu_some hj).1
  · exact (decodeHandler_some hj).1

end Machine
end Sys2Proof
end

