-- ==== Sys2Proof/Laws/Exec.lean ====
section
/-! SUPPORT. What an instruction can do, said once for all fifteen: its effect on the state before the PC policy, or a fault. -/

namespace Sys2Proof
namespace Machine

/-- The state with SP one lower (R130). -/
abbrev State.spDown (s : State) : State := s.setReg Config.spIndex (s.sp - 1)

/-- The state with SP one higher (R130). -/
abbrev State.spUp (s : State) : State := s.setReg Config.spIndex (s.sp + 1)

/-- What each instruction's handler leaves when it raises no fault, and when it raises none. -/
inductive Effect : Instr → State → State → Prop where
  | hlt (s : State) : Effect .hlt s s.halt
  | ldi (s : State) {r : Byte} (imm : Byte) (h : r.toNat < 8) : Effect (.ldi r imm) s (s.setReg ⟨r.toNat, h⟩ imm)
  | prn (s : State) {r : Byte} (h : r.toNat < 8) : Effect (.prn r) s (s.emit (s.reg ⟨r.toNat, h⟩))
  | push (s : State) {r : Byte} (h : r.toNat < 8) (hsp : 1 ≤ s.sp.toNat) :
      Effect (.push r) s (s.spDown.setMem (s.mem.write (s.sp - 1).toNat (s.spDown.reg ⟨r.toNat, h⟩)))
  | pop (s : State) {r : Byte} (h : r.toNat < 8)
      (hsp : (s.setReg ⟨r.toNat, h⟩ (s.mem.read s.sp.toNat)).sp.toNat ≤ 254) :
      Effect (.pop r) s (s.setReg ⟨r.toNat, h⟩ (s.mem.read s.sp.toNat)).spUp
  | call (s : State) {r : Byte} (h : r.toNat < 8) (hsp : 1 ≤ s.sp.toNat) :
      Effect (.call r) s
        ((s.spDown.setMem (s.mem.write (s.sp - 1).toNat (BitVec.ofNat 8 (s.pc + 2)))).setPc (s.spDown.reg ⟨r.toNat, h⟩).toNat)
  | ret (s : State) (hsp : s.sp.toNat ≤ 254) : Effect .ret s (s.spUp.setPc (s.mem.read s.sp.toNat).toNat)
  | jmp (s : State) {r : Byte} (h : r.toNat < 8) : Effect (.jmp r) s (s.setPc (s.reg ⟨r.toNat, h⟩).toNat)
  | jeq (s : State) {r : Byte} (h : r.toNat < 8) :
      Effect (.jeq r) s (s.setPc (if s.flags.e then (s.reg ⟨r.toNat, h⟩).toNat else s.pc + 2))
  | jne (s : State) {r : Byte} (h : r.toNat < 8) :
      Effect (.jne r) s (s.setPc (if s.flags.e then s.pc + 2 else (s.reg ⟨r.toNat, h⟩).toNat))
  | add (s : State) {a b : Byte} (ha : a.toNat < 8) (hb : b.toNat < 8) :
      Effect (.add a b) s (s.setReg ⟨a.toNat, ha⟩ (u8 ((s.reg ⟨a.toNat, ha⟩).toNat + (s.reg ⟨b.toNat, hb⟩).toNat)))
  | sub (s : State) {a b : Byte} (ha : a.toNat < 8) (hb : b.toNat < 8) :
      Effect (.sub a b) s (s.setReg ⟨a.toNat, ha⟩ (u8 ((s.reg ⟨a.toNat, ha⟩).toNat - (s.reg ⟨b.toNat, hb⟩).toNat)))
  | mul (s : State) {a b : Byte} (ha : a.toNat < 8) (hb : b.toNat < 8) :
      Effect (.mul a b) s (s.setReg ⟨a.toNat, ha⟩ (u8 ((s.reg ⟨a.toNat, ha⟩).toNat * (s.reg ⟨b.toNat, hb⟩).toNat)))
  | div (s : State) {a b : Byte} (ha : a.toNat < 8) (hb : b.toNat < 8) (hz : s.reg ⟨b.toNat, hb⟩ ≠ 0) :
      Effect (.div a b) s
        (s.setReg ⟨a.toNat, ha⟩ (u8 (((s.reg ⟨a.toNat, ha⟩).toNat / (s.reg ⟨b.toNat, hb⟩).toNat : Nat) : Int)))
  | cmp (s : State) {a b : Byte} (ha : a.toNat < 8) (hb : b.toNat < 8) :
      Effect (.cmp a b) s (s.setFlags (compareFlags (s.reg ⟨a.toNat, ha⟩) (s.reg ⟨b.toNat, hb⟩)))

/-- A handler's answer is its instruction's effect, or a fault raised at the instruction's own pc that fits its record (R170). -/
def Answers (i : Instr) (s : State) (r : Except FaultCause State) : Prop :=
  (∃ u, r = .ok u ∧ Effect i s u) ∨ (∃ c, r = .error c ∧ c.info.pc = s.pc ∧ c.info.fits c.kind = true)

theorem outOfBounds_register_fits {p : Nat} {r : Byte} (h : 8 ≤ r.toNat) :
    (outOfBounds p .register r.toNat).info.fits .outOfBounds = true := by
  have := r.isLt
  simp [outOfBounds, FaultInfo.fits, FaultKind.code]
  omega

theorem answers_register {i : Instr} {s : State} {r : Byte} (h : 8 ≤ r.toNat) :
    Answers i s (.error (outOfBounds s.pc .register r.toNat)) :=
  .inr ⟨_, rfl, rfl, outOfBounds_register_fits h⟩

theorem answers_pair {i : Instr} {s : State} {a b : Byte} {k : RegIdx × RegIdx → Except FaultCause State}
    (h : ∀ (ha : a.toNat < 8) (hb : b.toNat < 8), Answers i s (k (⟨a.toNat, ha⟩, ⟨b.toNat, hb⟩))) :
    Answers i s (regPair s.pc a b >>= k) := by
  rcases regPair_cases s.pc a b with ⟨ha, hb, e⟩ | ⟨ha, e⟩ | ⟨_, hb, e⟩ <;> rw [e]
  · exact h ha hb
  · exact answers_register ha
  · exact answers_register hb

theorem answers_reg {i : Instr} {s : State} {r : Byte} {k : RegIdx → Except FaultCause State}
    (h : ∀ hr : r.toNat < 8, Answers i s (k ⟨r.toNat, hr⟩)) : Answers i s (regOperand s.pc r >>= k) := by
  rcases regOperand_cases s.pc r with ⟨hr, e⟩ | ⟨hr, e⟩ <;> rw [e]
  · exact h hr
  · exact answers_register hr

theorem answers_ok {i : Instr} {s u : State} (h : Effect i s u) : Answers i s (.ok u) := .inl ⟨u, rfl, h⟩

theorem pastInstr_two {ir : Byte} (h : operandCount ir = 1) (p : Nat) : pastInstr ir p = p + 2 := by
  simp only [pastInstr, h]

/-- Everything an instruction can do. -/
theorem exec_answers (i : Instr) (s : State) : ∃ r, exec i s = complete i.opcode s r ∧ Answers i s r := by
  cases i with
  | hlt => exact ⟨_, rfl, answers_ok (.hlt s)⟩
  | ldi r imm => exact ⟨_, rfl, answers_reg fun h => answers_ok (.ldi s imm h)⟩
  | prn r => exact ⟨_, rfl, answers_reg fun h => answers_ok (.prn s h)⟩
  | push r =>
    refine ⟨_, rfl, answers_reg fun h => ?_⟩
    rcases spDec_cases s.pc s with ⟨hs, e⟩ | ⟨hs, e⟩
    · rw [e, except_bind_ok, memWrite_byte, setReg_sp_same, setReg_mem]
      exact answers_ok (.push s h hs)
    · rw [e]
      exact .inr ⟨_, rfl, rfl, rfl⟩
  | pop r =>
    refine ⟨_, rfl, answers_reg fun h => ?_⟩
    rw [memRead_byte, except_bind_ok]
    rcases spInc_cases s.pc (s.setReg ⟨r.toNat, h⟩ (s.mem.read s.sp.toNat)) with ⟨hs, e⟩ | ⟨hs, e⟩
    · rw [e]
      exact answers_ok (.pop s h hs)
    · rw [e]
      exact .inr ⟨_, rfl, rfl, rfl⟩
  | call r =>
    refine ⟨_, rfl, answers_reg fun h => ?_⟩
    rcases spDec_cases s.pc s with ⟨hs, e⟩ | ⟨hs, e⟩
    · rw [e, except_bind_ok, memWrite_byte, except_bind_ok, pastInstr_two rfl, u8_ofNat, setReg_sp_same, setReg_mem]
      exact answers_ok (.call s h hs)
    · rw [e]
      exact .inr ⟨_, rfl, rfl, rfl⟩
  | ret =>
    refine ⟨_, rfl, ?_⟩
    rw [memRead_byte, except_bind_ok]
    rcases spInc_cases s.pc s with ⟨hs, e⟩ | ⟨hs, e⟩
    · rw [e]
      exact answers_ok (.ret s hs)
    · rw [e]
      exact .inr ⟨_, rfl, rfl, rfl⟩
  | jmp r => exact ⟨_, rfl, answers_reg fun h => answers_ok (.jmp s h)⟩
  | jeq r =>
    refine ⟨_, rfl, answers_reg fun h => ?_⟩
    rw [pastInstr_two rfl]
    exact answers_ok (.jeq s h)
  | jne r =>
    refine ⟨_, rfl, answers_reg fun h => ?_⟩
    have e := Effect.jne s h
    rw [pastInstr_two rfl]
    cases hf : s.flags.e <;> rw [hf] at e <;> exact answers_ok e
  | add a b => exact ⟨_, rfl, answers_pair fun ha hb => answers_ok (.add s ha hb)⟩
  | sub a b => exact ⟨_, rfl, answers_pair fun ha hb => answers_ok (.sub s ha hb)⟩
  | mul a b => exact ⟨_, rfl, answers_pair fun ha hb => answers_ok (.mul s ha hb)⟩
  | div a b =>
    refine ⟨_, rfl, answers_pair fun ha hb => ?_⟩
    simp only
    by_cases hz : s.reg ⟨b.toNat, hb⟩ = 0
    · rw [if_pos hz]
      refine .inr ⟨_, rfl, rfl, ?_⟩
      simp [divisionByZero, FaultInfo.fits, FaultKind.code]
      omega
    · rw [if_neg hz]
      exact answers_ok (.div s ha hb hz)
  | cmp a b => exact ⟨_, rfl, answers_pair fun ha hb => answers_ok (.cmp s ha hb)⟩

/-- The same of a next state: the fault taken, or the effect through the PC policy. -/
theorem exec_next_cases {i : Instr} {s t : State} (h : exec i s = .next t) :
    (∃ u, Effect i s u ∧ t = autoAdvance i.opcode s.pc u) ∨
      (∃ c, c.info.pc = s.pc ∧ c.info.fits c.kind = true ∧ t = takeFault c s) := by
  obtain ⟨r, hr, ha⟩ := exec_answers i s
  rw [hr] at h
  rcases ha with ⟨u, rfl, hu⟩ | ⟨c, rfl, hp, hc⟩
  · exact .inl ⟨u, hu, by simpa [complete_ok] using h.symm⟩
  · exact .inr ⟨c, hp, hc, by simpa [complete_error] using h.symm⟩

end Machine
end Sys2Proof
end

