-- ==== Sys2Proof/Laws/PerInstr.lean ====
section
/-! SUPPORT. One lemma per constructor of Instr, by family. The family `OpcodeFields`: the opcode byte of an instruction carries
its operand count and its ALU bit, and the instruction's bytes are one more than its operands (R60, R67). -/

namespace Sys2Proof
namespace Laws
namespace OpcodeFields

/-- The bytes are as many as bits 7..6 of the opcode say, as the format has operands, and bit 5 says it is an ALU operation. -/
def Statement (i : Instr) : Prop :=
  (encode i).length = operandCount i.opcode + 1 ∧ i.operandBytes.length = i.format.operands ∧
    (isAlu i.opcode = true ↔ i.format = .rr)

/-- The statement, by cases on the instruction. -/
theorem every (i : Instr) : Statement i := by
  cases i <;>
    simp [Statement, encode, Instr.operandBytes, Instr.opcode, operandCount, Instr.format, Format.operands, isAlu]

theorem hlt : Statement .hlt := every _
theorem ldi (r imm : Byte) : Statement (.ldi r imm) := every _
theorem prn (r : Byte) : Statement (.prn r) := every _
theorem push (r : Byte) : Statement (.push r) := every _
theorem pop (r : Byte) : Statement (.pop r) := every _
theorem call (r : Byte) : Statement (.call r) := every _
theorem ret : Statement .ret := every _
theorem jmp (r : Byte) : Statement (.jmp r) := every _
theorem jeq (r : Byte) : Statement (.jeq r) := every _
theorem jne (r : Byte) : Statement (.jne r) := every _
theorem add (a b : Byte) : Statement (.add a b) := every _
theorem sub (a b : Byte) : Statement (.sub a b) := every _
theorem mul (a b : Byte) : Statement (.mul a b) := every _
theorem div (a b : Byte) : Statement (.div a b) := every _
theorem cmp (a b : Byte) : Statement (.cmp a b) := every _

end OpcodeFields
end Laws
end Sys2Proof
end

