-- ==== Sys2Proof/Tests/Slice0.lean ====
section
/-! SUPPORT. The model's own tests: ill-formed terms refused, words of the spec decoded, one or two steps of each instruction from
the vectors of 95_test_vectors.md, and for every statement with hypotheses a witness that meets them all. -/

namespace Sys2Proof
namespace Tests

open Machine

/-- The reset state with bytes placed at an address and pc there. -/
def atPc (p : Nat) (bs : List Byte) : State := (State.reset.setMem (Memory.place p bs [])).setPc p

/-- The outcome is a next state with a property. -/
def nextIs (o : Host.Outcome State Fault Refusal) (p : State → Bool) : Bool :=
  match o with
  | .next t => p t
  | .fault _ => false
  | .refused _ => false

/-- The outcome is the stop of an ended run. -/
def isEnded (o : Host.Outcome State Fault Refusal) : Bool :=
  match o with
  | .next _ => false
  | .fault .runEnded => true
  | .refused _ => false

/-- The status is an Error of this kind with this record. -/
def errorIs (t : State) (kind : FaultKind) (code pc : Nat) (value : Int) (space : Option Space) : Bool :=
  decide (t.status = .error kind { code := code, pc := pc, value := value, space := space })

/-! Ill-formed terms: each check of WellFormed refuses one (R64). -/

theorem test_illFormed_ldi : Instr.wellFormed (.ldi 8 0) = false := by decide
theorem test_illFormed_prn : Instr.wellFormed (.prn 8) = false := by decide
theorem test_illFormed_push : Instr.wellFormed (.push 8) = false := by decide
theorem test_illFormed_pop : Instr.wellFormed (.pop 255) = false := by decide
theorem test_illFormed_call : Instr.wellFormed (.call 8) = false := by decide
theorem test_illFormed_jmp : Instr.wellFormed (.jmp 8) = false := by decide
theorem test_illFormed_jeq : Instr.wellFormed (.jeq 9) = false := by decide
theorem test_illFormed_jne : Instr.wellFormed (.jne 9) = false := by decide
theorem test_illFormed_rr :
    ([Instr.add 8 0, .add 0 8, .sub 8 0, .sub 0 8, .mul 8 0, .mul 0 8, .div 8 0, .div 0 8, .cmp 8 0, .cmp 0 8].all
      fun i => !i.wellFormed) = true := by decide
theorem test_wellFormed :
    ([Instr.hlt, .ret, .ldi 7 255, .prn 7, .push 0, .pop 7, .call 1, .jmp 2, .jeq 3, .jne 4, .add 0 7, .cmp 7 7].all
      fun i => i.wellFormed) = true := by decide

/-! Every constructor from its word, written out bit by bit from R66 and R63 (first byte lowest). -/

theorem test_decode_hlt : decodeTableWord 8 0b00000001 = some .hlt := by decide
theorem test_decode_ret : decodeTableWord 8 0b00010001 = some .ret := by decide
theorem test_decode_ldi : decodeTableWord 24 0b000010000000000010000010 = some (.ldi 0 8) := by decide
theorem test_decode_prn : decodeTableWord 16 0b0000011101000111 = some (.prn 7) := by decide
theorem test_decode_push : decodeTableWord 16 0b0000010001000101 = some (.push 4) := by decide
theorem test_decode_pop : decodeTableWord 16 0b0000001001000110 = some (.pop 2) := by decide
theorem test_decode_call : decodeTableWord 16 0b0000000101010000 = some (.call 1) := by decide
theorem test_decode_jmp : decodeTableWord 16 0b0000001001010100 = some (.jmp 2) := by decide
theorem test_decode_jeq : decodeTableWord 16 0b0000001001010101 = some (.jeq 2) := by decide
theorem test_decode_jne : decodeTableWord 16 0b0000001101010110 = some (.jne 3) := by decide
theorem test_decode_add : decodeTableWord 24 0b000000010000000010100000 = some (.add 0 1) := by decide
theorem test_decode_sub : decodeTableWord 24 0b000000100000000110100001 = some (.sub 1 2) := by decide
theorem test_decode_mul : decodeTableWord 24 0b000000110000001010100010 = some (.mul 2 3) := by decide
theorem test_decode_div : decodeTableWord 24 0b000001000000001110100011 = some (.div 3 4) := by decide
theorem test_decode_cmp : decodeTableWord 24 0b000001010000010010100111 = some (.cmp 4 5) := by decide

/-- A table row shorter than its operands: the bytes above it are 0. -/
theorem test_decode_short : decodeTableWord 8 0xFFFF82 = some (.ldi 0 0) := by decide
/-- R68: 241 of the 256 bytes are no instruction, 123 with bit 5 = 1 and 118 with bit 5 = 0. -/
theorem test_illegal_bytes :
    ((List.range 256).countP fun n => decode (BitVec.ofNat 8 n) 0 0 matches .error (.unsupportedOperation _)) = 123 ∧
      ((List.range 256).countP fun n => decode (BitVec.ofNat 8 n) 0 0 matches .error (.unknownOpcode _)) = 118 := by
  decide +kernel

/-! One step each, from the vectors of 95_test_vectors.md (the id is in the name). -/

theorem test_V1_add_wraps :
    nextIs (step (((atPc 0 [0xA0, 0, 1]).setReg 0 200).setReg 1 100)) (fun t => t.reg 0 == 44 && t.pc == 3) = true := by decide
theorem test_V27_add_moves_sp : nextIs (step ((atPc 0 [0xA0, 7, 1]).setReg 1 1)) (fun t => t.sp == 245) = true := by decide
theorem test_V5_sub_below_zero :
    nextIs (step (((atPc 0 [0xA1, 0, 1]).setReg 0 3).setReg 1 5)) (fun t => t.reg 0 == 254 && t.reg 1 == 5) = true := by decide
theorem test_V8_mul_wraps :
    nextIs (step (((atPc 0 [0xA2, 0, 1]).setReg 0 255).setReg 1 255)) (fun t => t.reg 0 == 1) = true := by decide
theorem test_V12_div_floor :
    nextIs (step (((atPc 0 [0xA3, 0, 1]).setReg 0 255).setReg 1 2)) (fun t => t.reg 0 == 127) = true := by decide
theorem test_V13_div_by_zero :
    nextIs (step ((atPc 0 [0xA3, 0, 1]).setReg 0 7)) (fun t => errorIs t .divisionByZero 2 0 1 none && t.reg 0 == 7) = true := by
  decide
theorem test_V20_cmp_unsigned :
    nextIs (step ((atPc 0 [0xA7, 0, 1]).setReg 0 255)) (fun t => decide (t.flags = ⟨false, true, false⟩)) = true := by decide
theorem test_V21_cmp_replaces_flags :
    nextIs (step ((((atPc 0 [0xA7, 0, 1]).setReg 0 1).setReg 1 1).setFlags ⟨false, true, false⟩))
      (fun t => decide (t.flags = ⟨true, false, false⟩)) = true := by decide
theorem test_V34_ldi_sp : nextIs (step (atPc 0 [0x82, 7, 0x10])) (fun t => t.sp == 16 && t.pc == 3) = true := by decide
theorem test_V36_ldi_to_256 : nextIs (step (atPc 253 [0x82, 0, 0])) (fun t => t.pc == 256) = true := by decide
theorem test_V38_prn : nextIs (step ((atPc 0 [0x47, 0]).setReg 0 72)) (fun t => t.out == [72] && t.pc == 2) = true := by decide
theorem test_V41_prn_at_0xFE :
    nextIs (step (atPc 254 [0x47, 0])) (fun t => errorIs t .outOfBounds 1 254 256 (some .memory) && t.out == []) = true := by decide
theorem test_V44_push_r7 : nextIs (step (atPc 0 [0x45, 7])) (fun t => t.sp == 243 && t.mem.read 0xF3 == 0xF3) = true := by decide
theorem test_V48_push_at_zero :
    nextIs (step ((atPc 16 [0x45, 0]).setReg 7 0)) (fun t => errorIs t .outOfBounds 1 16 (-1) (some .memory)) = true := by decide
theorem test_V43_pop :
    nextIs (step (((atPc 0 [0x46, 1]).setMem (Memory.write [(0, 0x46), (1, 1)] 0xF3 0x2A)).setReg 7 243))
      (fun t => t.reg 1 == 42 && t.sp == 244 && t.mem.read 0xF3 == 0x2A) = true := by decide
theorem test_V45_pop_r7 :
    nextIs (step ((State.reset.setMem [(0, 0x46), (1, 7), (0xF3, 0x80)]).setReg 7 243)) (fun t => t.sp == 129) = true := by decide
theorem test_V53_call :
    nextIs (step ((atPc 6 [0x50, 1]).setReg 1 11)) (fun t => t.sp == 243 && t.mem.read 0xF3 == 8 && t.pc == 11) = true := by decide
theorem test_V55_call_r7 : nextIs (step (atPc 0 [0x50, 7])) (fun t => t.mem.read 0xF3 == 2 && t.pc == 243) = true := by decide
theorem test_V54_ret :
    nextIs (step ((State.reset.setMem [(0, 0x11), (0xF3, 0x08)]).setReg 7 243)) (fun t => t.sp == 244 && t.pc == 8) = true := by
  decide
theorem test_V57_ret_at_top :
    nextIs (step ((State.reset.setMem [(0, 0x11), (0xFF, 0x05)]).setReg 7 255))
      (fun t => errorIs t .outOfBounds 1 0 256 (some .memory)) = true := by decide
theorem test_V66_jmp_r7 : nextIs (step (atPc 0 [0x54, 7])) (fun t => t.pc == 244) = true := by decide
theorem test_V67_jeq_taken :
    nextIs (step (((atPc 10 [0x55, 2]).setReg 2 48).setFlags ⟨true, false, false⟩)) (fun t => t.pc == 48) = true := by decide
theorem test_V73_jeq_index_checked :
    nextIs (step (atPc 10 [0x55, 9])) (fun t => errorIs t .outOfBounds 1 10 9 (some .register)) = true := by decide
theorem test_V70_jne_not_taken :
    nextIs (step (((atPc 10 [0x56, 2]).setReg 2 48).setFlags ⟨true, false, false⟩)) (fun t => t.pc == 12) = true := by decide
theorem test_V72_jne_taken : nextIs (step ((atPc 10 [0x56, 2]).setReg 2 48)) (fun t => t.pc == 48) = true := by decide
theorem test_V76_hlt : nextIs (step (atPc 0 [0x01])) (fun t => decide (t.status = .halted) && t.pc == 0) = true := by decide
theorem test_V80_hlt_then_no_step : nextIs (step (atPc 0 [0x01])) (fun t => isEnded (step t)) = true := by decide
/-- V26: operand byte 1 is checked first. -/
theorem test_V26_first_operand_wins :
    nextIs (step (atPc 0 [0xA0, 9, 10])) (fun t => errorIs t .outOfBounds 1 0 9 (some .register)) = true := by decide
/-- V30: the selector is checked before the operands. -/
theorem test_V30_selector_first :
    nextIs (step (atPc 0 [0xFF, 0xFF, 0xFF])) (fun t => errorIs t .unsupportedOperation 4 0 255 none) = true := by decide
theorem test_V82_zero_byte : nextIs (step State.reset) (fun t => errorIs t .unknownOpcode 3 0 0 none) = true := by decide
theorem test_V87_pc_256 :
    nextIs (step (State.reset.setPc 256)) (fun t => errorIs t .outOfBounds 1 256 256 (some .memory)) = true := by decide

/-- An instruction placed by withFetchWord runs as the first step after reset. -/
theorem test_withFetchWord :
    nextIs (step (State.reset.withFetchWord 24 0x0800_82)) (fun t => t.reg 0 == 8 && t.pc == 3) = true := by decide
/-- R29: FL shown as a byte, L bit 2, G bit 1, E bit 0. -/
theorem test_flags_byte : Flags.toByte ⟨true, false, false⟩ = 1 ∧ Flags.toByte ⟨false, true, false⟩ = 2 ∧
    Flags.toByte ⟨false, false, true⟩ = 4 := by decide
/-- L1 and L5 of the loader vectors. -/
theorem test_image_text :
    (parseImage ("10000010 # LDI R0,8\n# comment only\n\n   00000001   \nLDI r0,8".toList) matches .ok [0x82, 0x01]) = true := by
  decide
/-- L8 of the loader vectors. -/
theorem test_short_line : (parseImage ("0101".toList) matches .error .malformedInstruction) = true := by decide
/-- E7: the assembly of the source's end-to-end scenario. -/
theorem test_assemble :
    assemble ("LDI r0,8; LDI r1,9; MUL r0,r1; PRN r0; HLT".toList) =
      some [0x82, 0, 8, 0x82, 1, 9, 0xA2, 0, 1, 0x47, 0, 1] := by decide
/-- R202, R203: starting from a path whose text is one HLT line, a path that does not exist, and no path. -/
theorem test_boot :
    (match boot [['a']] [(['a'], "00000001".toList)] with
      | .ok s => decide (s = atPc 0 [0x01])
      | .error _ => false) = true ∧
      (boot [['b']] [(['a'], "00000001".toList)] matches .error .fileNotFound) = true ∧
      (boot [] [(['a'], "00000001".toList)] matches .error .usage) = true := by decide

/-! Witnesses: for every statement with hypotheses, a state and operands that meet all of them; where a statement has several
clauses, each clause, at the ends of its range. -/

theorem witness_StepKeepsInvariant : State.reset.Inv ∧ (atPc 0 [0x01]).Inv ∧ nextIs (step (atPc 0 [0x01])) (fun _ => true) = true := by
  decide

theorem witness_EncodeOfDecodedIsTheBytes : (decode 0x82 0 8 matches .ok (.ldi 0 8)) = true := by decide

/-- An ALU byte in the map and one not, a handler byte in the map and one not. -/
theorem witness_DecodeFollowsOpcodeFields :
    (isAlu 0xA7 = true ∧ 0xA7 ∈ Opcode.alus) ∧ (isAlu 0xA4 = true ∧ 0xA4 ∉ Opcode.alus) ∧
      (isAlu 0x56 = false ∧ 0x56 ∈ Opcode.handlers) ∧ (isAlu 0x00 = false ∧ 0x00 ∉ Opcode.handlers) := by decide

theorem witness_FetchReadsThreeBytes : State.reset.pc ≤ 253 ∧ (atPc 253 [0x01]).pc ≤ 253 := by decide

theorem witness_FetchAtTopFaults :
    ([254, 255, 256].all fun p => decide ((atPc p []).status = .running ∧ 253 < (atPc p []).pc ∧ (atPc p []).pc ≤ 256)) = true := by
  decide

theorem witness_StepRunsTheDecodedInstruction :
    (atPc 0 [0x82, 3, 0xAB]).status = .running ∧ (fetch (atPc 0 [0x82, 3, 0xAB]) matches .ok (0x82, 3, 0xAB)) = true ∧
      (decode 0x82 3 0xAB matches .ok (.ldi 3 0xAB)) = true := by decide

theorem witness_StepRunsTheEncodedInstruction :
    (atPc 253 [0x82, 3, 0xAB]).status = .running ∧ (atPc 253 [0x82, 3, 0xAB]).pc ≤ 253 ∧
      ∀ k (h : k < (encode (.ldi 3 0xAB)).length),
        (atPc 253 [0x82, 3, 0xAB]).mem.read ((atPc 253 [0x82, 3, 0xAB]).pc + k) = (encode (.ldi 3 0xAB))[k] := by decide

theorem witness_UnknownByteFaults :
    (atPc 0 [0x52]).status = .running ∧ (fetch (atPc 0 [0x52]) matches .ok (0x52, 0, 0)) = true ∧
      (0x52 : Byte).getLsbD 5 = false ∧ 0x52 ∉ Opcode.handlers := by decide

theorem witness_UnsupportedByteFaults :
    (atPc 0 [0xA4]).status = .running ∧ (fetch (atPc 0 [0xA4]) matches .ok (0xA4, 0, 0)) = true ∧
      (0xA4 : Byte).getLsbD 5 = true ∧ 0xA4 ∉ Opcode.alus := by decide

theorem witness_RunningStepAnswersNextState : State.reset.status = .running := by decide

theorem witness_EndedRunHasNoStep :
    State.reset.halt.status = .halted ∧
      (takeFault (unknownOpcode 0 0) State.reset).status = .error .unknownOpcode ⟨3, 0, 0, none⟩ := by decide

theorem witness_FaultChangesOnlyStatus :
    nextIs (step (atPc 0 [0xA3, 0, 1])) (fun t => errorIs t .divisionByZero 2 0 1 none) = true := by decide

theorem witness_AutoAdvanceMovesPastOperands :
    (fetch (atPc 0 [0x47, 0]) matches .ok (0x47, 0, 0)) = true ∧
      nextIs (step (atPc 0 [0x47, 0])) (fun t => decide (t.status = .running)) = true ∧ setsPc 0x47 = false := by decide

/-- Each of the five, from one state: CALL, RET, JMP, JEQ and JNE all complete in it. -/
theorem witness_PcSettersSetPc :
    setsPc Opcode.call = true ∧ (1 : Byte).toNat < 8 ∧
      ([Instr.call 1, .ret, .jmp 1, .jeq 1, .jne 1].all
        fun i => nextIs (exec i State.reset) (fun t => decide (t.status = .running))) = true := by decide

/-! The completions, at r0 and at r7. -/

theorem witness_AddCompletes : (0 : Byte).toNat < 8 ∧ (7 : Byte).toNat < 8 ∧ State.reset.status = .running := by decide
theorem witness_SubCompletes : (0 : Byte).toNat < 8 ∧ (7 : Byte).toNat < 8 ∧ State.reset.status = .running := by decide
theorem witness_MulCompletes : (0 : Byte).toNat < 8 ∧ (7 : Byte).toNat < 8 ∧ State.reset.status = .running := by decide
theorem witness_CmpCompletes : (0 : Byte).toNat < 8 ∧ (7 : Byte).toNat < 8 ∧ State.reset.status = .running := by decide
theorem witness_LdiCompletes : (0 : Byte).toNat < 8 ∧ (7 : Byte).toNat < 8 ∧ State.reset.status = .running := by decide
theorem witness_PrnCompletes : (0 : Byte).toNat < 8 ∧ (7 : Byte).toNat < 8 ∧ State.reset.status = .running := by decide
theorem witness_DivCompletes :
    (0 : Byte).toNat < 8 ∧ (7 : Byte).toNat < 8 ∧ State.reset.status = .running ∧
      State.reset.reg ⟨(7 : Byte).toNat, by decide⟩ ≠ 0 := by decide
theorem witness_JmpCompletes : (0 : Byte).toNat < 8 ∧ (7 : Byte).toNat < 8 := by decide
theorem witness_JeqCompletes : (0 : Byte).toNat < 8 ∧ (7 : Byte).toNat < 8 := by decide
theorem witness_JneCompletes : (0 : Byte).toNat < 8 ∧ (7 : Byte).toNat < 8 := by decide

theorem witness_PushCompletes :
    (7 : Byte).toNat < 8 ∧ (atPc 0 [0x45, 7]).status = .running ∧ (atPc 0 [0x45, 7]).mem.wf = true ∧
      1 ≤ (atPc 0 [0x45, 7]).sp.toNat ∧ 1 ≤ ((atPc 0 [0x45, 7]).setReg 7 1).sp.toNat := by decide

theorem witness_PopCompletes :
    ((6 : Byte).toNat < 8 ∧ State.reset.status = .running ∧ (6 : Byte).toNat ≠ 7 ∧ (State.reset.setReg 7 254).sp.toNat ≤ 254) ∧
      ((State.reset.setMem [(0xF4, 254)]).status = .running ∧
        ((State.reset.setMem [(0xF4, 254)]).mem.read (State.reset.setMem [(0xF4, 254)]).sp.toNat).toNat ≤ 254) := by decide

theorem witness_CallCompletes :
    (7 : Byte).toNat < 8 ∧ (atPc 253 [0x50, 7]).mem.wf = true ∧ (atPc 253 [0x50, 7]).pc ≤ 253 ∧
      1 ≤ (atPc 253 [0x50, 7]).sp.toNat := by decide

theorem witness_RetCompletes : State.reset.sp.toNat ≤ 254 ∧ (State.reset.setReg 7 254).sp.toNat ≤ 254 := by decide

theorem witness_BadRegisterOperandFaults :
    (8 ≤ (8 : Byte).toNat ∧ Instr.jeq 8 ∈ [Instr.ldi 8 0, .prn 8, .push 8, .pop 8, .call 8, .jmp 8, .jeq 8, .jne 8]) ∧
      (8 ≤ (255 : Byte).toNat ∧ Instr.cmp 255 0 ∈ [Instr.add 255 0, .sub 255 0, .mul 255 0, .div 255 0, .cmp 255 0]) ∧
      ((7 : Byte).toNat < 8 ∧ 8 ≤ (8 : Byte).toNat ∧ Instr.div 7 8 ∈ [Instr.add 7 8, .sub 7 8, .mul 7 8, .div 7 8, .cmp 7 8]) := by
  decide

theorem witness_ZeroDivisorFaults : (0 : Byte).toNat < 8 ∧ State.reset.reg ⟨(0 : Byte).toNat, by decide⟩ = 0 := by decide

theorem witness_StackPointerRangeFaults :
    ((7 : Byte).toNat < 8 ∧ (State.reset.setReg 7 0).sp.toNat = 0 ∧ Instr.call 7 ∈ [Instr.push 7, .call 7]) ∧
      (State.reset.setReg 7 255).sp.toNat = 255 ∧ ((6 : Byte).toNat < 7 ∧ (State.reset.setReg 7 255).sp.toNat = 255) ∧
      ((State.reset.setMem [(0xF4, 255)]).mem.read (State.reset.setMem [(0xF4, 255)]).sp.toNat).toNat = 255 := by decide

theorem witness_RegisterFrame : nextIs (exec (.ldi 0 5) State.reset) (fun _ => true) = true ∧ writesReg (.ldi 0 5) 1 = false := by
  decide

theorem witness_OnlyCmpWritesFlags :
    nextIs (exec (.add 0 1) State.reset) (fun _ => true) = true ∧ ∀ a b, Instr.add 0 1 ≠ .cmp a b :=
  ⟨by decide, fun _ _ h => by cases h⟩

theorem witness_MemoryFrame :
    State.reset.mem.wf = true ∧ (nextIs (exec (.pop 0) State.reset) (fun _ => true) = true ∧ storesBelowSp (.pop 0) = false) ∧
      (nextIs (exec (.push 0) State.reset) (fun _ => true) = true ∧ storesBelowSp (.push 0) = true ∧
        (spDec 0 State.reset matches .ok _) = true) ∧
      (nextIs (exec (.call 0) (State.reset.setReg 7 0)) (fun _ => true) = true ∧ storesBelowSp (.call 0) = true ∧
        (State.reset.setReg 7 0).sp.toNat = 0) := by decide

theorem witness_OnlyPrnEmits :
    nextIs (exec (.prn 7) State.reset) (fun _ => true) = true ∧ nextIs (step (atPc 0 [0x47, 7])) (fun _ => true) = true := by decide

theorem witness_OnlyHltHalts : nextIs (step (atPc 0 [0x01])) (fun t => decide (t.status = .halted)) = true := by decide

theorem witness_OnlyEqualFlagIsRead : nextIs (step (atPc 0 [0x56, 0])) (fun _ => true) = true := by decide

theorem witness_AluReadsOnlyItsOperands :
    isAlu (Instr.add 0 1).opcode = true ∧ State.reset.status = .running ∧ (State.reset.setReg 2 9).status = .running ∧
      (∀ j : RegIdx, BitVec.ofNat 8 j.val ∈ (Instr.add 0 1).operandBytes → (State.reset.setReg 2 9).reg j = State.reset.reg j) ∧
      nextIs (exec (.add 0 1) State.reset) (fun t => decide (t.status = .running)) = true := by decide

theorem witness_MemoryReadsLastWrite :
    State.reset.mem.wf = true ∧ ((0 : Int) ≤ 0 ∧ (0 : Int) ≤ 255) ∧ ((0 : Int) ≤ 255 ∧ (255 : Int) ≤ 255) ∧
      ¬((0 : Int) ≤ -1 ∧ (-1 : Int) ≤ 255) ∧ ¬((0 : Int) ≤ 256 ∧ (256 : Int) ≤ 255) := by decide

theorem witness_CanonicalMemoryIsItsBytes :
    Memory.wf [(0, 1), (255, 2)] = true ∧
      ∀ a : Nat, a < 256 → Memory.read [(0, 1), (255, 2)] a = Memory.read [(0, 1), (255, 2)] a := ⟨by decide, fun _ _ => rfl⟩

/-- Both clauses, fetching at the stored byte's own address 243, with CALL at the highest pc a fetch allows. -/
theorem witness_FetchSeesPushedByte :
    ((7 : Byte).toNat < 8 ∧ State.reset.mem.wf = true ∧ nextIs (exec (.push 7) State.reset) (fun _ => true) = true ∧
        1 ≤ State.reset.sp.toNat ∧ (243 : Nat) ≤ 253) ∧
      ((7 : Byte).toNat < 8 ∧ (atPc 253 [0x50, 7]).mem.wf = true ∧
        nextIs (exec (.call 7) (atPc 253 [0x50, 7])) (fun t => t.sp == 243) = true ∧ 1 ≤ (atPc 253 [0x50, 7]).sp.toNat ∧
        (atPc 253 [0x50, 7]).pc ≤ 253 ∧ (243 : Nat) ≤ 253) := by decide

theorem witness_AccessesExplainMemory :
    nextIs (step (atPc 0 [0x45, 7])) (fun _ => true) = true ∧
      stepAccesses (atPc 0 [0x45, 7]) = [.read 0, .read 1, .read 2, .write 243 243] := by decide

theorem witness_FetchReadsComeFirst : State.reset.status = .running ∧ State.reset.pc ≤ 253 := by decide

theorem witness_PushPopRestores :
    (7 : Byte).toNat < 8 ∧ State.reset.status = .running ∧ State.reset.mem.wf = true ∧ 1 ≤ State.reset.sp.toNat ∧
      1 ≤ (State.reset.setReg 7 255).sp.toNat := by decide

/-- The state after the CALL itself meets the hypotheses on `u`. -/
theorem witness_CallRetResumes :
    (1 : Byte).toNat < 8 ∧ State.reset.mem.wf = true ∧ State.reset.pc ≤ 253 ∧ 1 ≤ State.reset.sp.toNat ∧
      nextIs (exec (.call 1) State.reset)
        (fun t => decide (t.sp = t.sp ∧ t.mem.read t.sp.toNat = t.mem.read t.sp.toNat)) = true := by decide

theorem witness_RunEndsInHaltedOrError : (runToEnd 1 (atPc 0 [0x01])).isSome = true ∧ (runToEnd 1 State.reset).isSome = true := by
  decide

theorem witness_JumpToItselfNeverEnds :
    (0 : Byte).toNat < 8 ∧ (atPc 0 [0x54, 0]).status = .running ∧ (atPc 0 [0x54, 0]).pc ≤ 253 ∧
      (atPc 0 [0x54, 0]).mem.read (atPc 0 [0x54, 0]).pc = Opcode.jmp ∧
      (atPc 0 [0x54, 0]).mem.read ((atPc 0 [0x54, 0]).pc + 1) = 0 ∧
      ((atPc 0 [0x54, 0]).reg ⟨(0 : Byte).toNat, by decide⟩).toNat = (atPc 0 [0x54, 0]).pc := by decide

theorem witness_ImageBytesLieFromZero : ([0x01] : List Byte).length ≤ 256 ∧ (List.replicate 256 (0x01 : Byte)).length ≤ 256 :=
  ⟨by decide, List.length_replicate.le⟩

theorem witness_OversizeImageIsRefused : 256 < (List.replicate 257 (0x01 : Byte)).length :=
  Nat.lt_of_lt_of_eq (by decide) List.length_replicate.symm

/-- A payload of 4 characters, and payloads of exactly 8 whose only bad character is the last or the second. -/
theorem witness_MalformedLineFailsTheLoad :
    (parseLines [['#']] matches .ok []) = true ∧ isBinDigit '0' = true ∧
      (payload "0101".toList = "0101".toList ∧ "0101".toList.length < 8) ∧
      (payload "01010102".toList = "01010102".toList ∧ "01010102".toList.length = 8 ∧
        ∃ d ∈ "01010102".toList.take 8, isBinDigit d = false) ∧
      (payload "0x010101".toList = "0x010101".toList ∧ "0x010101".toList.length = 8 ∧
        ∃ d ∈ "0x010101".toList.take 8, isBinDigit d = false) :=
  ⟨by decide, by decide, by decide, ⟨by decide, by decide, '2', by decide, by decide⟩, by decide, by decide, 'x', by decide,
    by decide⟩

/-- The same lines as the text of a path. -/
theorem witness_MalformedLineFailsTheLoad_boot :
    ([("p".toList, "#\n01010102\n".toList)] : List (Text × Text)).lookup "p".toList = some "#\n01010102\n".toList ∧
      splitAtChar '\n' "#\n01010102\n".toList = [['#']] ++ "01010102".toList :: [[]] := by decide

theorem witness_AssemblyReadsBack : instrText (.ldi 7 255) = some "LDI r7,255".toList ∧ instrText .hlt = some "HLT".toList := by
  decide

theorem witness_ReportFollowsStatus :
    State.reset.halt.status = .halted ∧ State.reset.status = .running ∧
      (takeFault (unknownOpcode 0 0) State.reset).status = .error .unknownOpcode ⟨3, 0, 0, none⟩ := by decide

end Tests
end Sys2Proof
end

section
/-! PROOFS. The memory interface (20_memory.md): what a read answers after a write (R41, R42), and where a loaded image lies (R55). -/

namespace Sys2Proof
namespace Machine

/-! Reads and writes at integer addresses (R41, R42). -/

theorem memRead_in {pc0 : Nat} {a : Int} {s : State} (h : 0 ≤ a ∧ a ≤ 255) :
    memRead pc0 a s = .ok (s.mem.read a.toNat) := if_pos h

theorem memWrite_in {pc0 : Nat} {a : Int} {v : Byte} {s : State} (h : 0 ≤ a ∧ a ≤ 255) :
    memWrite pc0 a v s = .ok (s.setMem (s.mem.write a.toNat v)) := if_pos h

/-- A write to `a` is seen by no read of another integer address, in memory or outside it. -/
theorem memRead_after_write_other {pc0 : Nat} {a b : Int} {v : Byte} {s : State} (hs : s.mem.wf = true) (ha : 0 ≤ a)
    (hne : b ≠ a) : memRead pc0 b (s.setMem (s.mem.write a.toNat v)) = memRead pc0 b s := by
  by_cases hb : 0 ≤ b ∧ b ≤ 255
  · have hcell : b.toNat ≠ a.toNat := by omega
    simp only [memRead_in hb, setMem_mem, Memory.read_write hs, if_neg hcell]
  · have hout : b < 0 ∨ 255 < b := by omega
    rw [memRead_out hout, memRead_out hout]

/-- Settles O45: a write inside memory is the canonical write of one cell, and a fault carries the address itself. -/
theorem memoryReadsLastWrite : Obligations.MemoryReadsLastWrite := by
  intro p a v s hs
  constructor
  · intro ha
    refine ⟨memRead_in ha, _, memWrite_in ha, rfl, ?_, fun b hne => memRead_after_write_other hs ha.1 hne⟩
    rw [memRead_in ha, setMem_mem, Memory.read_write hs, if_pos rfl]
  · intro ha
    have hout : a < 0 ∨ 255 < a := by omega
    exact ⟨outOfBounds p .memory a, rfl, rfl, rfl, memRead_out hout, memWrite_out hout⟩

/-! Loading an image (R55, R201). -/

@[simp] theorem reset_mem_read (a : Nat) : State.reset.mem.read a = 0x00 := rfl

/-- Loading from `a` on leaves the bytes below `a`, puts the loaded bytes from `a` on, and leaves what lies past them. -/
theorem Memory.read_load {bs : List Byte} {a : Nat} {m : Memory} (hm : m.wf = true) (hend : a + bs.length ≤ 256) (b : Nat) :
    (Memory.load a bs m).read b = if b < a then m.read b else bs.getD (b - a) (m.read b) := by
  induction bs generalizing a m with
  | nil => simp only [Memory.load, List.getD_nil, ite_self]
  | cons v vs ih =>
    rw [List.length_cons] at hend
    have hwf : (m.write a v).wf = true := Memory.write_wf hm (by omega)
    have hrest : a + 1 + vs.length ≤ 256 := by omega
    rw [Memory.load, ih hwf hrest, Memory.read_write hm]
    rcases Nat.lt_trichotomy b a with hlt | rfl | hgt
    · simp only [if_pos hlt, if_pos (Nat.lt_succ_of_lt hlt), if_neg (Nat.ne_of_lt hlt)]
    · simp only [if_pos (Nat.lt_succ_self b), lt_irrefl, if_true, if_false, Nat.sub_self, List.getD_cons_zero]
    · have hidx : b - a = b - (a + 1) + 1 := by omega
      simp only [if_neg (Nat.not_lt.mpr (Nat.succ_le_of_lt hgt)), if_neg (Nat.ne_of_gt hgt), if_neg (Nat.lt_asymm hgt), hidx,
        List.getD_cons_succ]

theorem loadImage_fits {image : List Byte} (h : image.length ≤ 256) :
    loadImage image = .ok (State.reset.setMem (Memory.load 0 image State.reset.mem)) := if_pos h

/-- Settles O54: the image is loaded from address 0 over the reset memory, whose every byte is 0x00. -/
theorem imageBytesLieFromZero : Obligations.ImageBytesLieFromZero := by
  refine ⟨reset_mem_read, fun image hlen => ⟨_, loadImage_fits hlen, fun a => ?_, rfl⟩⟩
  have hend : 0 + image.length ≤ 256 := by omega
  rw [setMem_mem, Memory.read_load reset_mem_wf hend, if_neg (Nat.not_lt_zero a), Nat.sub_zero, reset_mem_read]

end Machine
end Sys2Proof
end

section
/-! PROOFS. The encoding (30_encoding.md): the fields of the opcode byte, and the bytes each decoding path answers (R62). -/

namespace Sys2Proof
namespace Machine

/-! The fields of the opcode byte (R62). -/

theorem operandCount_eq_div (ir : Byte) : operandCount ir = ir.toNat / 64 := by
  rw [operandCount, BitVec.toNat_ushiftRight, Nat.shiftRight_eq_div_pow]

/-- Shifting bit `n` down to bit 0 and masking it is reading bit `n`. -/
theorem shiftRight_and_one_beq_one (ir : Byte) (n : Nat) : ((ir >>> n) &&& 1 == 1) = ir.getLsbD n := by
  have hmask : (ir >>> n) &&& 1 = (BitVec.ofBool (ir.getLsbD n)).setWidth 8 :=
    BitVec.and_one_eq_setWidth_ofBool_getLsbD.trans (by rw [BitVec.getLsbD_ushiftRight, Nat.add_zero])
  rw [hmask]
  cases ir.getLsbD n <;> rfl

theorem isAlu_eq_getLsbD (ir : Byte) : isAlu ir = ir.getLsbD 5 := shiftRight_and_one_beq_one ir 5

theorem setsPc_eq_getLsbD (ir : Byte) : setsPc ir = ir.getLsbD 4 := shiftRight_and_one_beq_one ir 4

/-! Which bytes each path rejects, and which it accepts (R66, R68). -/

/-- The path is a chain of tests for the opcodes of its list: it answers nothing exactly when every test fails. -/
theorem decodeAlu_eq_none_iff {ir a b : Byte} : decodeAlu ir a b = none ↔ ir ∉ Opcode.alus := by
  simp [decodeAlu, Opcode.alus, ite_eq_iff]

theorem mem_alus_of_decodeAlu_eq_some {ir a b : Byte} {i : Instr} (h : decodeAlu ir a b = some i) : ir ∈ Opcode.alus := by
  by_contra hnot
  exact Option.some_ne_none i (h.symm.trans (decodeAlu_eq_none_iff.mpr hnot))

theorem decodeHandler_eq_none_iff {ir op1 op2 : Byte} : decodeHandler ir op1 op2 = none ↔ ir ∉ Opcode.handlers := by
  simp [decodeHandler, Opcode.handlers, ite_eq_iff]

theorem mem_handlers_of_decodeHandler_eq_some {ir op1 op2 : Byte} {i : Instr} (h : decodeHandler ir op1 op2 = some i) :
    ir ∈ Opcode.handlers := by
  by_contra hnot
  exact Option.some_ne_none i (h.symm.trans (decodeHandler_eq_none_iff.mpr hnot))

/-! What decode answers on each path (R62). -/

theorem decode_of_isAlu {ir : Byte} (op1 op2 : Byte) (halu : isAlu ir = true) :
    if ir ∈ Opcode.alus then ∃ i, decode ir op1 op2 = .ok i ∧ i.opcode = ir ∧ i.operandBytes = [op1, op2]
    else decode ir op1 op2 = .error (.unsupportedOperation ir) := by
  rcases decode_cases ir op1 op2 with ⟨_, ⟨i, hpath, hdec⟩ | ⟨hpath, hdec⟩⟩ | ⟨hbit, _⟩
  · rw [if_pos (mem_alus_of_decodeAlu_eq_some hpath)]
    exact ⟨i, hdec, decodeAlu_some hpath⟩
  · rw [if_neg (decodeAlu_eq_none_iff.mp hpath)]
    exact hdec
  · exact absurd halu (ne_true_of_eq_false hbit)

theorem decode_of_not_isAlu {ir : Byte} (op1 op2 : Byte) (hhandler : isAlu ir = false) :
    if ir ∈ Opcode.handlers then ∃ i, decode ir op1 op2 = .ok i ∧ i.opcode = ir
    else decode ir op1 op2 = .error (.unknownOpcode ir) := by
  rcases decode_cases ir op1 op2 with ⟨hbit, _⟩ | ⟨_, ⟨i, hpath, hdec⟩ | ⟨hpath, hdec⟩⟩
  · exact absurd hbit (ne_true_of_eq_false hhandler)
  · rw [if_pos (mem_handlers_of_decodeHandler_eq_some hpath)]
    exact ⟨i, hdec, decode_opcode hdec⟩
  · rw [if_neg (decodeHandler_eq_none_iff.mp hpath)]
    exact hdec

/-- Settles O6: bit 5 chooses the path, each path answers exactly the opcodes of its list, with that opcode and, for the
ALU operations, both operand bytes. -/
theorem decodeFollowsOpcodeFields : Obligations.DecodeFollowsOpcodeFields := by
  intro ir op1 op2
  exact ⟨operandCount_eq_div ir, isAlu_eq_getLsbD ir, setsPc_eq_getLsbD ir,
    decode_of_isAlu op1 op2, decode_of_not_isAlu op1 op2⟩

end Machine
end Sys2Proof
end

section
/-! PROOFS. The instruction cycle (40_cycle.md): where pc stands after a step that leaves the engine Running (R84). -/

namespace Sys2Proof
namespace Machine

/-- A fault ends the run (R178), so a state still Running was not left by one. -/
theorem takeFault_status_ne_running (c : FaultCause) (s : State) : (takeFault c s).status ≠ .running := nofun

/-- A step still Running at its end ran the decoded instruction to its effect, which went through the PC policy (R84 to R86). -/
theorem step_running_cases {s t : State} (hstep : step s = .next t) (hrun : t.status = .running) :
    ∃ ir op1 op2 i u, fetch s = .ok (ir, op1, op2) ∧ decode ir op1 op2 = .ok i ∧ Effect i s u ∧ u.status = .running ∧
      t = autoAdvance ir s.pc u := by
  rcases step_cases s with ⟨_, e⟩ | ⟨_, _, e⟩ | ⟨_, _, _, _, _, _, _, _, e⟩ | ⟨ir, op1, op2, i, _, _, hfetch, hdec, e⟩ <;>
    rw [e] at hstep
  · cases hstep
  · cases hstep
    exact absurd hrun (takeFault_status_ne_running _ s)
  · cases hstep
    exact absurd hrun (takeFault_status_ne_running _ s)
  · rcases exec_next_cases hstep with ⟨u, heffect, rfl⟩ | ⟨c, _, _, rfl⟩
    · rw [autoAdvance_status] at hrun
      exact ⟨ir, op1, op2, i, u, hfetch, hdec, heffect, hrun, by rw [decode_opcode hdec]⟩
    · exact absurd hrun (takeFault_status_ne_running c s)

/-- Settles O18: the step ran an instruction with the fetched opcode, and the PC policy advanced the state its effect left. -/
theorem autoAdvanceMovesPastOperands : Obligations.AutoAdvanceMovesPastOperands := by
  intro s t ir op1 op2 hfetch hstep hrun hkeeps
  obtain ⟨ir', _, _, _, u, hfetch', _, _, hu, rfl⟩ := step_running_cases hstep hrun
  obtain rfl : ir = ir' := congrArg Prod.fst (Except.ok.inj (hfetch.symm.trans hfetch'))
  rw [autoAdvance_running hu hkeeps, setPc_pc, pastInstr]

end Machine
end Sys2Proof
end

section
/-! PROOFS. When an instruction completes and when it raises: `exec` answers the effect through the PC policy where the effect's
conditions hold (R84, R85), takes the one cause it raises where they do not (R87, R177), and always does one of the two. -/

namespace Sys2Proof
namespace Machine

/-- Where an instruction has an effect, `exec` answers it through the PC policy: the converse of `exec_next_cases`. -/
theorem exec_of_effect {i : Instr} {s u : State} (he : Effect i s u) : exec i s = .next (autoAdvance i.opcode s.pc u) := by
  cases he with
  | hlt => rfl
  | ldi _ _ h => simp only [exec, execLdi, regOperand_ok h]; rfl
  | prn _ h => simp only [exec, execPrn, regOperand_ok h]; rfl
  | push _ h hsp =>
    simp only [exec, execPush, regOperand_ok h, spDec_ok hsp, except_bind_ok, setReg_sp_same, memWrite_byte]; rfl
  | pop _ h hsp => simp only [exec, execPop, regOperand_ok h, memRead_byte, except_bind_ok, spInc_ok hsp]; rfl
  | call _ h hsp =>
    simp only [exec, execCall, regOperand_ok h, spDec_ok hsp, except_bind_ok, setReg_sp_same, memWrite_byte,
      pastInstr_two (ir := Opcode.call) rfl, u8_ofNat]
    rfl
  | ret _ hsp => simp only [exec, execRet, memRead_byte, except_bind_ok, spInc_ok hsp]; rfl
  | jmp _ h => simp only [exec, execJmp, regOperand_ok h]; rfl
  | jeq _ h => simp only [exec, execJeq, branchIf, regOperand_ok h]; rfl
  | jne _ h => cases hf : s.flags.e <;> simp only [exec, execJne, branchIf, regOperand_ok h, hf] <;> rfl
  | add _ ha hb => simp only [exec, execAdd, aluWrite, regPair_ok ha hb]; rfl
  | sub _ ha hb => simp only [exec, execSub, aluWrite, regPair_ok ha hb]; rfl
  | mul _ ha hb => simp only [exec, execMul, aluWrite, regPair_ok ha hb]; rfl
  | div _ ha hb hz => simp only [exec, execDiv, regPair_ok ha hb, except_bind_ok, if_neg hz]; rfl
  | cmp _ ha hb => simp only [exec, execCmp, regPair_ok ha hb]; rfl

end Machine

/-! What an instruction raises (R171, R172, R177). -/

/-- The operand bytes that must name a register, in the order they are checked (R64, R177). -/
def Instr.regOperands : Instr → List Byte
  | .hlt | .ret => []
  | .ldi r _ | .prn r | .push r | .pop r | .call r | .jmp r | .jeq r | .jne r => [r]
  | .add a b | .sub a b | .mul a b | .div a b | .cmp a b => [a, b]

/-- The first of these bytes that names no register (R24, R177). -/
def firstBad (rs : List Byte) : Option Byte := rs.find? fun r => !namesReg r

theorem namesReg_iff {r : Byte} : namesReg r = true ↔ r.toNat < 8 := decide_eq_true_iff

theorem firstBad_cons (r : Byte) (rs : List Byte) : firstBad (r :: rs) = if r.toNat < 8 then firstBad rs else some r := by
  by_cases h : r.toNat < 8 <;> simp [firstBad, namesReg, h]

theorem firstBad_one {r c : Byte} : firstBad [r] = some c ↔ 8 ≤ r.toNat ∧ c = r := by
  rw [firstBad_cons]
  split_ifs with h
  · simp [firstBad, h]
  · simp [Nat.le_of_not_lt h, eq_comm]

theorem firstBad_two {a b c : Byte} :
    firstBad [a, b] = some c ↔ (8 ≤ a.toNat ∧ c = a) ∨ (a.toNat < 8 ∧ 8 ≤ b.toNat ∧ c = b) := by
  rw [firstBad_cons]
  split_ifs with h
  · simp [firstBad_one, h]
  · simp [Nat.le_of_not_lt h, h, eq_comm]

theorem firstBad_one_eq_none {r : Byte} : firstBad [r] = none ↔ r.toNat < 8 := by
  simp [firstBad, namesReg_iff]

theorem firstBad_two_eq_none {a b : Byte} : firstBad [a, b] = none ↔ a.toNat < 8 ∧ b.toNat < 8 := by
  simp [firstBad, namesReg_iff]

namespace Machine

/-- The one cause an instruction raises, in the order of R177: a register operand, then the zero divisor or the range of SP. -/
inductive Raises : Instr → State → FaultCause → Prop where
  | register (s : State) {i : Instr} {r : Byte} (h : firstBad i.regOperands = some r) :
      Raises i s (outOfBounds s.pc .register r.toNat)
  | div (s : State) {a b : Byte} (ha : a.toNat < 8) (hb : b.toNat < 8) (hz : s.reg ⟨b.toNat, hb⟩ = 0) :
      Raises (.div a b) s (divisionByZero s.pc b)
  | push (s : State) {r : Byte} (h : r.toNat < 8) (hsp : s.sp.toNat = 0) : Raises (.push r) s (outOfBounds s.pc .memory (-1))
  | call (s : State) {r : Byte} (h : r.toNat < 8) (hsp : s.sp.toNat = 0) : Raises (.call r) s (outOfBounds s.pc .memory (-1))
  | pop (s : State) {r : Byte} (h : r.toNat < 8) (hsp : (s.setReg ⟨r.toNat, h⟩ (s.mem.read s.sp.toNat)).sp.toNat = 255) :
      Raises (.pop r) s (outOfBounds s.pc .memory 256)
  | ret (s : State) (hsp : s.sp.toNat = 255) : Raises .ret s (outOfBounds s.pc .memory 256)

theorem complete_regOperand_bad {ir r c : Byte} {s : State} {k : RegIdx → Except FaultCause State} (h : firstBad [r] = some c) :
    complete ir s (regOperand s.pc r >>= k) = .next (takeFault (outOfBounds s.pc .register c.toNat) s) := by
  obtain ⟨hr, rfl⟩ := firstBad_one.mp h
  rw [regOperand_bad hr, except_bind_error, complete_error]

theorem complete_regPair_bad {ir a b c : Byte} {s : State} {k : RegIdx × RegIdx → Except FaultCause State}
    (h : firstBad [a, b] = some c) :
    complete ir s (regPair s.pc a b >>= k) = .next (takeFault (outOfBounds s.pc .register c.toNat) s) := by
  have hpair : regPair s.pc a b = .error (outOfBounds s.pc .register c.toNat) := by
    rcases firstBad_two.mp h with ⟨ha, rfl⟩ | ⟨ha, hb, rfl⟩
    · rw [regPair, regOperand_bad ha, except_bind_error]
    · rw [regPair, regOperand_ok ha, except_bind_ok, regOperand_bad hb, except_bind_error]
  rw [hpair, except_bind_error, complete_error]

/-- Every instruction checks its register operands before anything else (R24, the spec's decision D10). -/
theorem exec_firstBad {i : Instr} {r : Byte} (s : State) (h : firstBad i.regOperands = some r) :
    exec i s = .next (takeFault (outOfBounds s.pc .register r.toNat) s) := by
  cases i with
  | hlt => cases h
  | ret => cases h
  | ldi | prn | push | pop | call | jmp | jeq | jne => exact complete_regOperand_bad h
  | add | sub | mul | div | cmp => exact complete_regPair_bad h

/-- Where an instruction raises a cause, `exec` takes it in the state the instruction began in. -/
theorem exec_of_raises {i : Instr} {s : State} {c : FaultCause} (hr : Raises i s c) : exec i s = .next (takeFault c s) := by
  cases hr with
  | register _ h => exact exec_firstBad s h
  | div _ ha hb hz => simp only [exec, execDiv, regPair_ok ha hb, except_bind_ok, if_pos hz, complete_error]
  | push _ h hsp => simp only [exec, execPush, regOperand_ok h, spDec_zero hsp, except_bind_ok, except_bind_error, complete_error]
  | call _ h hsp => simp only [exec, execCall, regOperand_ok h, spDec_zero hsp, except_bind_ok, except_bind_error, complete_error]
  | pop _ h hsp => simp only [exec, execPop, regOperand_ok h, memRead_byte, except_bind_ok, spInc_top hsp, complete_error]
  | ret _ hsp => simp only [exec, execRet, memRead_byte, except_bind_ok, spInc_top hsp, except_bind_error, complete_error]

/-- In every state an instruction has its effect or raises a cause. -/
theorem effect_or_raises (i : Instr) (s : State) : (∃ u, Effect i s u) ∨ ∃ c, Raises i s c := by
  cases hbad : firstBad i.regOperands with
  | some r => exact .inr ⟨_, .register s hbad⟩
  | none =>
    cases i with
    | hlt => exact .inl ⟨_, .hlt s⟩
    | ldi r imm => exact .inl ⟨_, .ldi s imm (firstBad_one_eq_none.mp hbad)⟩
    | prn r => exact .inl ⟨_, .prn s (firstBad_one_eq_none.mp hbad)⟩
    | push r =>
      rcases spDec_cases s.pc s with ⟨hsp, _⟩ | ⟨hsp, _⟩
      · exact .inl ⟨_, .push s (firstBad_one_eq_none.mp hbad) hsp⟩
      · exact .inr ⟨_, .push s (firstBad_one_eq_none.mp hbad) hsp⟩
    | pop r =>
      have h := firstBad_one_eq_none.mp hbad
      rcases spInc_cases s.pc (s.setReg ⟨r.toNat, h⟩ (s.mem.read s.sp.toNat)) with ⟨hsp, _⟩ | ⟨hsp, _⟩
      · exact .inl ⟨_, .pop s h hsp⟩
      · exact .inr ⟨_, .pop s h hsp⟩
    | call r =>
      rcases spDec_cases s.pc s with ⟨hsp, _⟩ | ⟨hsp, _⟩
      · exact .inl ⟨_, .call s (firstBad_one_eq_none.mp hbad) hsp⟩
      · exact .inr ⟨_, .call s (firstBad_one_eq_none.mp hbad) hsp⟩
    | ret =>
      rcases spInc_cases s.pc s with ⟨hsp, _⟩ | ⟨hsp, _⟩
      · exact .inl ⟨_, .ret s hsp⟩
      · exact .inr ⟨_, .ret s hsp⟩
    | jmp r => exact .inl ⟨_, .jmp s (firstBad_one_eq_none.mp hbad)⟩
    | jeq r => exact .inl ⟨_, .jeq s (firstBad_one_eq_none.mp hbad)⟩
    | jne r => exact .inl ⟨_, .jne s (firstBad_one_eq_none.mp hbad)⟩
    | add a b => exact .inl ⟨_, .add s (firstBad_two_eq_none.mp hbad).1 (firstBad_two_eq_none.mp hbad).2⟩
    | sub a b => exact .inl ⟨_, .sub s (firstBad_two_eq_none.mp hbad).1 (firstBad_two_eq_none.mp hbad).2⟩
    | mul a b => exact .inl ⟨_, .mul s (firstBad_two_eq_none.mp hbad).1 (firstBad_two_eq_none.mp hbad).2⟩
    | div a b =>
      obtain ⟨ha, hb⟩ := firstBad_two_eq_none.mp hbad
      by_cases hz : s.reg ⟨b.toNat, hb⟩ = 0
      · exact .inr ⟨_, .div s ha hb hz⟩
      · exact .inl ⟨_, .div s ha hb hz⟩
    | cmp a b => exact .inl ⟨_, .cmp s (firstBad_two_eq_none.mp hbad).1 (firstBad_two_eq_none.mp hbad).2⟩

/-- What `exec` answers, by which of the two holds. -/
theorem exec_effect_or_raises (i : Instr) (s : State) :
    (∃ u, Effect i s u ∧ exec i s = .next (autoAdvance i.opcode s.pc u)) ∨
      ∃ c, Raises i s c ∧ exec i s = .next (takeFault c s) := by
  rcases effect_or_raises i s with ⟨u, hu⟩ | ⟨c, hc⟩
  · exact .inl ⟨u, hu, exec_of_effect hu⟩
  · exact .inr ⟨c, hc, exec_of_raises hc⟩

end Machine
end Sys2Proof
end

section
/-! PROOFS. The frames (10_state.md section 8, R28, R43): which registers, memory bytes, flags, output and status the effect of an
instruction may change, and where it may leave pc. -/

namespace Sys2Proof
namespace Machine

theorem ne_regIdx_of_beq_false {r : Byte} {j : RegIdx} (h : r.toNat < 8) (hw : (r.toNat == j.val) = false) :
    j ≠ ⟨r.toNat, h⟩ := by
  rintro rfl
  simp at hw

theorem effect_reg {i : Instr} {s u : State} {j : RegIdx} (he : Effect i s u) (hw : writesReg i j = false) :
    u.reg j = s.reg j := by
  cases he with
  | hlt | prn | jmp | jeq | jne | cmp => rfl
  | ldi _ _ h | add _ h | sub _ h | mul _ h | div _ h => exact setReg_reg_ne (ne_regIdx_of_beq_false h hw)
  | push | call | ret => exact setReg_reg_ne (ne_of_beq_false hw)
  | pop _ h =>
    obtain ⟨hr, hsp⟩ := Bool.or_eq_false_iff.mp hw
    rw [State.spUp, setReg_reg_ne (ne_of_beq_false hsp), setReg_reg_ne (ne_regIdx_of_beq_false h hr)]

/-- PUSH and CALL write one byte, at SP less 1; no other instruction touches memory (R43). -/
theorem effect_mem {i : Instr} {s u : State} (he : Effect i s u) :
    (storesBelowSp i = false ∧ u.mem = s.mem) ∨
      (storesBelowSp i = true ∧ 1 ≤ s.sp.toNat ∧ ∃ v, u.mem = s.mem.write (s.sp - 1).toNat v) := by
  cases he with
  | push _ _ hsp | call _ _ hsp => exact .inr ⟨rfl, hsp, _, rfl⟩
  | _ => exact .inl ⟨rfl, rfl⟩

theorem effect_flags {i : Instr} {s u : State} (he : Effect i s u) :
    u.flags = s.flags ∨ ∃ a b x y, i = .cmp a b ∧ u.flags = compareFlags x y := by
  cases he with
  | cmp => exact .inr ⟨_, _, _, _, rfl, rfl⟩
  | _ => exact .inl rfl

theorem effect_out {i : Instr} {s u : State} (he : Effect i s u) :
    u.out = s.out ∨ ∃ (r : Byte) (h : r.toNat < 8), i = .prn r ∧ u.out = s.out ++ [s.reg ⟨r.toNat, h⟩] := by
  cases he with
  | prn _ h => exact .inr ⟨_, h, rfl, rfl⟩
  | _ => exact .inl rfl

theorem effect_status {i : Instr} {s u : State} (he : Effect i s u) : u.status = s.status ∨ (i = .hlt ∧ u = s.halt) := by
  cases he with
  | hlt => exact .inr ⟨rfl, rfl⟩
  | _ => exact .inl rfl

theorem byte_le (v : Byte) : v.toNat ≤ 255 := Nat.le_of_lt_succ v.isLt

/-- The handler leaves pc at an address of memory: where it was, past a branch, or at a byte. -/
theorem effect_pc_le {i : Instr} {s u : State} (he : Effect i s u) (hp : s.pc ≤ 253) : u.pc ≤ 255 := by
  cases he with
  | call | ret | jmp => exact byte_le _
  | jeq _ h | jne _ h =>
    have hreg := byte_le (s.reg ⟨_, h⟩)
    rw [setPc_pc]
    split_ifs <;> omega
  | _ => exact Nat.le_trans hp (by decide)

/-- No instruction is longer than three bytes (R60). -/
theorem operandCount_opcode_le (i : Instr) : operandCount i.opcode ≤ 2 := by
  obtain ⟨hlen, hops, _⟩ := Laws.OpcodeFields.every i
  rw [encode, List.length_cons, hops] at hlen
  cases hf : i.format <;> rw [hf, Format.operands] at hlen <;> omega

theorem autoAdvance_pc_le {i : Instr} {s u : State} (he : Effect i s u) (hp : s.pc ≤ 253) :
    (autoAdvance i.opcode s.pc u).pc ≤ 256 := by
  have hu := effect_pc_le he hp
  have hops := operandCount_opcode_le i
  rw [autoAdvance]
  split_ifs
  · rw [setPc_pc, pastInstr]
    omega
  · omega

end Machine
end Sys2Proof
end

section
/-! PROOFS. The invariant of the engine (R26, R40, R105, R170, R178): every instruction's effect and every fault keeps it. -/

namespace Sys2Proof
namespace Machine

/-- Taking a fault keeps the invariant when its record fits: nothing but the status changes (R178). -/
theorem takeFault_inv {s : State} {c : FaultCause} (hs : s.Inv) (hpc : c.info.pc = s.pc) (hfits : c.info.fits c.kind = true) :
    (takeFault c s).Inv := by
  obtain ⟨hmem, hle, hflags, _⟩ := hs
  exact ⟨hmem, hle, hflags, by simp [Status.fits, hpc, hfits]⟩

theorem effect_mem_wf {i : Instr} {s u : State} (he : Effect i s u) (hs : s.mem.wf = true) : u.mem.wf = true := by
  rcases effect_mem he with ⟨_, e⟩ | ⟨_, _, v, e⟩ <;> rw [e]
  · exact hs
  · exact Memory.write_wf hs (BitVec.isLt _)

theorem effect_flags_atMostOne {i : Instr} {s u : State} (he : Effect i s u) (hs : s.flags.atMostOne = true) :
    u.flags.atMostOne = true := by
  rcases effect_flags he with e | ⟨_, _, x, y, _, e⟩ <;> rw [e]
  · exact hs
  · exact compareFlags_atMostOne x y

theorem effect_status_fits {i : Instr} {s u : State} (he : Effect i s u) (hs : s.status = .running) (p : Nat) :
    u.status.fits p = true := by
  rcases effect_status he with e | ⟨_, rfl⟩
  · rw [e, hs]; rfl
  · rfl

/-- An instruction run where a step runs it, at an address its fetch could read, keeps the invariant. -/
theorem exec_keeps_inv {i : Instr} {s t : State} (hs : s.Inv) (hrun : s.status = .running) (hp : s.pc ≤ 253)
    (hexec : exec i s = .next t) : t.Inv := by
  rcases exec_next_cases hexec with ⟨u, hu, rfl⟩ | ⟨c, hpc, hfits, rfl⟩
  · obtain ⟨hmem, _, hflags, _⟩ := hs
    refine ⟨?_, autoAdvance_pc_le hu hp, ?_, ?_⟩
    · rw [autoAdvance_mem]; exact effect_mem_wf hu hmem
    · rw [autoAdvance_flags]; exact effect_flags_atMostOne hu hflags
    · rw [autoAdvance_status]; exact effect_status_fits hu hrun _
  · exact takeFault_inv hs hpc hfits

theorem decodeCause_pc (p : Nat) (e : DecodeError) : (decodeCause p e).info.pc = p := by
  cases e <;> rfl

theorem decodeCause_fits (p : Nat) (e : DecodeError) : (decodeCause p e).info.fits (decodeCause p e).kind = true := by
  cases e with
  | unknownOpcode ir | unsupportedOperation ir =>
    have := byte_le ir
    simp [decodeCause, unknownOpcode, unsupportedOperation, FaultInfo.fits]
    omega

/-- Settles O3: a step takes a fault whose record fits, or runs an instruction at an address its fetch could read. -/
theorem stepKeepsInvariant : Obligations.StepKeepsInvariant := by
  intro s t hs hstep
  rcases step_cases s with ⟨_, e⟩ | ⟨_, _, e⟩ | ⟨_, _, _, err, _, _, _, _, e⟩ | ⟨_, _, _, i, hrun, hp, _, _, e⟩ <;>
    rw [e] at hstep
  · cases hstep
  · cases hstep
    have ⟨_, hle, _, _⟩ := hs
    have hmax : max (s.pc : Int) 256 = 256 := max_eq_right (by exact_mod_cast hle)
    refine takeFault_inv hs rfl ?_
    rw [hmax]
    rfl
  · cases hstep
    exact takeFault_inv hs (decodeCause_pc _ _) (decodeCause_fits _ _)
  · exact exec_keeps_inv hs hrun hp hstep

/-- Settles O2: each clause of the invariant computes on the reset state. -/
theorem resetMeetsInvariant : Obligations.ResetMeetsInvariant :=
  ⟨reset_mem_wf, Nat.zero_le 256, rfl, rfl⟩

end Machine
end Sys2Proof
end

section
/-! PROOFS. The encoding, both ways (30_encoding.md): the bytes of an instruction decode to it, and a decoded instruction encodes to
the bytes it was read from. -/

namespace Sys2Proof
namespace Machine

/-! The operand bytes and the opcode of every instruction (R63, R67). -/

theorem operandBytes_length (i : Instr) : i.operandBytes.length = operandCount i.opcode := by
  obtain ⟨hlen, _, _⟩ := Laws.OpcodeFields.every i
  rw [encode, List.length_cons] at hlen
  omega

theorem isAlu_opcode_iff (i : Instr) : isAlu i.opcode = true ↔ i.format = .rr := by
  obtain ⟨_, _, halu⟩ := Laws.OpcodeFields.every i
  exact halu

/-- Bit 4 is set for the five instructions that set pc (R67). -/
theorem setsPc_opcode_iff (i : Instr) :
    setsPc i.opcode = true ↔ i = .ret ∨ ∃ r, i = .call r ∨ i = .jmp r ∨ i = .jeq r ∨ i = .jne r := by
  cases i with
  | call r | jmp r | jeq r | jne r => exact iff_of_true (by simp [Instr.opcode, setsPc]) (.inr ⟨r, by simp⟩)
  | ret => exact iff_of_true rfl (.inl rfl)
  | _ => exact iff_of_false (by simp [Instr.opcode, setsPc]) (by simp)

/-- Settles O7: the operand count and the ALU bit are the family `OpcodeFields`, bit 4 is `setsPc_opcode_iff`. -/
theorem opcodesObeyBitRules : Obligations.OpcodesObeyBitRules := fun i =>
  ⟨(operandBytes_length i).symm, isAlu_opcode_iff i, setsPc_opcode_iff i⟩

/-! From an instruction to its bytes and back. -/

/-- The ALU path finds the operation of its own opcode and operand bytes, whatever bytes follow. -/
theorem decodeAlu_encode {i : Instr} (h : i.format = .rr) (tail : List Byte) :
    decodeAlu i.opcode ((encode i ++ tail).getD 1 Config.erased) ((encode i ++ tail).getD 2 Config.erased) = some i := by
  cases i with
  | add | sub | mul | div | cmp => rfl
  | _ => cases h

/-- The handler path finds the handler of its own opcode and operand bytes, whatever bytes follow. -/
theorem decodeHandler_encode {i : Instr} (h : i.format ≠ .rr) (tail : List Byte) :
    decodeHandler i.opcode ((encode i ++ tail).getD 1 Config.erased) ((encode i ++ tail).getD 2 Config.erased) = some i := by
  cases i with
  | add | sub | mul | div | cmp => exact absurd rfl h
  | _ => rfl

/-- Bit 5 of the opcode sends the bytes down the path of their own format, and that path finds them. -/
theorem decodeWindow_encode_append (i : Instr) (tail : List Byte) : decodeWindow (encode i ++ tail) = .ok i := by
  have hir : (encode i ++ tail).getD 0 Config.erased = i.opcode := rfl
  rw [decodeWindow, hir, decode]
  by_cases hf : i.format = .rr
  · rw [if_pos ((isAlu_opcode_iff i).mpr hf), decodeAlu_encode hf]
  · rw [if_neg (mt (isAlu_opcode_iff i).mp hf), decodeHandler_encode hf]

/-- Settles O4. -/
theorem decodeOfEncodeIsTheInstruction : Obligations.DecodeOfEncodeIsTheInstruction := fun i x y =>
  decodeWindow_encode_append i [x, y]

/-- Settles O8: the nine words are encodings, and the two bytes lie on the path that rejects them. -/
theorem specWordsDecode : Obligations.SpecWordsDecode :=
  ⟨decodeWindow_encode_append (.ldi 0 8) [], decodeWindow_encode_append (.add 0 1) [], decodeWindow_encode_append (.cmp 3 2) [],
    decodeWindow_encode_append (.prn 7) [], decodeWindow_encode_append (.push 4) [], decodeWindow_encode_append (.call 1) [],
    decodeWindow_encode_append (.jeq 2) [], decodeWindow_encode_append .ret [], decodeWindow_encode_append .hlt [], rfl, rfl⟩

/-! From bytes to an instruction and back. -/

/-- A decoded instruction has the operand bytes that were fetched, as many as its opcode says. -/
theorem decode_operandBytes {ir op1 op2 : Byte} {i : Instr} (h : decode ir op1 op2 = .ok i) :
    i.operandBytes = [op1, op2].take i.operandBytes.length := by
  rcases decode_cases ir op1 op2 with ⟨_, ⟨j, hj, e⟩ | ⟨_, e⟩⟩ | ⟨_, ⟨j, hj, e⟩ | ⟨_, e⟩⟩ <;> rw [e] at h <;> cases h
  · rw [(decodeAlu_some hj).2]; rfl
  · exact (decodeHandler_some hj).2

/-- Settles O5: the opcode is the first byte, and the operand bytes are the next as many as bits 7..6 say. -/
theorem encodeOfDecodedIsTheBytes : Obligations.EncodeOfDecodedIsTheBytes := by
  intro ir op1 op2 i h
  rw [encode, decode_operandBytes h, operandBytes_length, decode_opcode h, List.take_succ_cons]

end Machine
end Sys2Proof
end

section
/-! PROOFS. The step (40_cycle.md): the fetch, what a step does with the bytes it fetched, and the end of a run. -/

namespace Sys2Proof
namespace Machine

/-- Settles O9. -/
theorem fetchReadsThreeBytes : Obligations.FetchReadsThreeBytes := fun _ hp => fetch_ok hp

/-! The front half of a step, by what it finds (R80 to R82). -/

theorem nextInstr_ended {s : State} (hs : s.status ≠ .running) : nextInstr s = .ended := if_neg hs

theorem nextInstr_fetch_fault {s : State} {c : FaultCause} (hs : s.status = .running) (hf : fetch s = .error c) :
    nextInstr s = .raised c := by
  simp only [nextInstr, if_pos hs, hf]

theorem nextInstr_decode_fault {s : State} {ir op1 op2 : Byte} {e : DecodeError} (hs : s.status = .running)
    (hf : fetch s = .ok (ir, op1, op2)) (hd : decode ir op1 op2 = .error e) : nextInstr s = .raised (decodeCause s.pc e) := by
  simp only [nextInstr, if_pos hs, hf, hd]

theorem nextInstr_decoded {s : State} {ir op1 op2 : Byte} {i : Instr} (hs : s.status = .running)
    (hf : fetch s = .ok (ir, op1, op2)) (hd : decode ir op1 op2 = .ok i) : nextInstr s = .decoded i := by
  simp only [nextInstr, if_pos hs, hf, hd]

theorem step_ended {s : State} (h : nextInstr s = .ended) : step s = .fault .runEnded := by rw [step, h]

theorem step_raised {s : State} {c : FaultCause} (h : nextInstr s = .raised c) : step s = .next (takeFault c s) := by rw [step, h]

theorem step_decoded {s : State} {i : Instr} (h : nextInstr s = .decoded i) : step s = exec i s := by rw [step, h]

/-- Settles O11. -/
theorem stepRunsTheDecodedInstruction : Obligations.StepRunsTheDecodedInstruction := fun _ _ _ _ _ hs hf hd =>
  step_decoded (nextInstr_decoded hs hf hd)

/-- Settles O10: one of the three fetch addresses is 256, and it is the first outside memory. -/
theorem fetchAtTopFaults : Obligations.FetchAtTopFaults := by
  intro s hs hlo hhi
  have hmax : max (s.pc : Int) 256 = 256 := max_eq_right (by exact_mod_cast hhi)
  rw [step_raised (nextInstr_fetch_fault hs (fetch_out hlo)), hmax]
  rfl

/-- Three bytes that begin with the bytes of an instruction decode to it. -/
theorem decode_of_encode_prefix {i : Instr} {ir op1 op2 : Byte} (h : encode i <+: [ir, op1, op2]) :
    decode ir op1 op2 = .ok i := by
  obtain ⟨tail, htail⟩ := h
  have hdec := decodeWindow_encode_append i tail
  rwa [htail] at hdec

/-- The bytes of an instruction that lie in memory from pc up begin the three bytes the fetch reads. -/
theorem encode_prefix_fetched {i : Instr} {s : State}
    (h : ∀ k (hk : k < (encode i).length), s.mem.read (s.pc + k) = (encode i)[k]) :
    encode i <+: [s.mem.read s.pc, s.mem.read (s.pc + 1), s.mem.read (s.pc + 2)] := by
  have hlen : (encode i).length ≤ 3 := by
    rw [encode, List.length_cons, operandBytes_length]
    exact Nat.succ_le_succ (operandCount_opcode_le i)
  have hmap : [s.mem.read s.pc, s.mem.read (s.pc + 1), s.mem.read (s.pc + 2)] =
      (List.range 3).map fun k => s.mem.read (s.pc + k) := rfl
  rw [hmap, List.prefix_iff_getElem]
  refine ⟨by simpa using hlen, fun k hk => ?_⟩
  rw [List.getElem_map, List.getElem_range, h k hk]

/-- Settles O12. -/
theorem stepRunsTheEncodedInstruction : Obligations.StepRunsTheEncodedInstruction := fun _ _ hs hp h =>
  step_decoded (nextInstr_decoded hs (fetch_ok hp) (decode_of_encode_prefix (encode_prefix_fetched h)))

/-- Settles O13: bit 5 clear sends the byte to the handlers, and none has it. -/
theorem unknownByteFaults : Obligations.UnknownByteFaults := by
  intro s ir op1 op2 hs hf hbit hnot
  have hdec := decode_of_not_isAlu op1 op2 ((isAlu_eq_getLsbD ir).trans hbit)
  rw [if_neg hnot] at hdec
  exact ⟨_, rfl, rfl, step_raised (nextInstr_decode_fault hs hf hdec)⟩

/-- Settles O14: bit 5 set sends the byte to the ALU, and no operation has it. -/
theorem unsupportedByteFaults : Obligations.UnsupportedByteFaults := by
  intro s ir op1 op2 hs hf hbit hnot
  have hdec := decode_of_isAlu op1 op2 ((isAlu_eq_getLsbD ir).trans hbit)
  rw [if_neg hnot] at hdec
  exact ⟨_, rfl, rfl, step_raised (nextInstr_decode_fault hs hf hdec)⟩

/-- Settles O15: every way a step of a running engine can go answers a next state. -/
theorem runningStepAnswersNextState : Obligations.RunningStepAnswersNextState := by
  intro s hs
  rcases step_cases s with ⟨hne, _⟩ | ⟨_, _, e⟩ | ⟨_, _, _, _, _, _, _, _, e⟩ | ⟨_, _, _, i, _, _, _, _, e⟩
  · exact absurd hs hne
  · exact ⟨_, e⟩
  · exact ⟨_, e⟩
  · rw [e]
    exact exec_next i s

/-- Settles O16. -/
theorem endedRunHasNoStep : Obligations.EndedRunHasNoStep := by
  intro s hend
  refine step_ended (nextInstr_ended fun hs => ?_)
  rcases hend with h | ⟨_, _, h⟩ <;> rw [hs] at h <;> cases h

/-- A step to a next state took a fault of this pc, or ran an instruction to its effect. -/
theorem step_fault_or_effect {s t : State} (hstep : step s = .next t) :
    s.status = .running ∧ ((∃ c, c.info.pc = s.pc ∧ t = takeFault c s) ∨
      ∃ ir op1 op2 i u, fetch s = .ok (ir, op1, op2) ∧ decode ir op1 op2 = .ok i ∧ Effect i s u ∧
        t = autoAdvance i.opcode s.pc u) := by
  rcases step_cases s with ⟨_, e⟩ | ⟨hs, _, e⟩ | ⟨_, _, _, err, hs, _, _, _, e⟩ | ⟨ir, op1, op2, i, hs, _, hf, hd, e⟩ <;>
    rw [e] at hstep
  · cases hstep
  · cases hstep
    exact ⟨hs, .inl ⟨_, rfl, rfl⟩⟩
  · cases hstep
    exact ⟨hs, .inl ⟨_, decodeCause_pc _ err, rfl⟩⟩
  · rcases exec_next_cases hstep with ⟨u, hu, ht⟩ | ⟨c, hpc, _, ht⟩
    · exact ⟨hs, .inr ⟨ir, op1, op2, i, u, hf, hd, hu, ht⟩⟩
    · exact ⟨hs, .inl ⟨c, hpc, ht⟩⟩

/-- Settles O17: an effect leaves Running or Halted, so a state in Error was left by a fault taken. -/
theorem faultChangesOnlyStatus : Obligations.FaultChangesOnlyStatus := by
  intro s t kind info hstep herr
  obtain ⟨hs, ⟨c, hpc, rfl⟩ | ⟨_, _, _, i, u, _, _, hu, rfl⟩⟩ := step_fault_or_effect hstep
  · cases herr
    exact ⟨hs, rfl, hpc⟩
  · rw [autoAdvance_status] at herr
    rcases effect_status hu with e | ⟨_, rfl⟩
    · rw [e, hs] at herr
      cases herr
    · cases herr

/-- Settles O42: a fault leaves Error, and of the effects only HLT's leaves Halted, where the PC policy does nothing. -/
theorem onlyHltHalts : Obligations.OnlyHltHalts := by
  intro s t hstep hhalt
  obtain ⟨hs, ⟨c, _, rfl⟩ | ⟨ir, _, _, i, u, hf, hd, hu, rfl⟩⟩ := step_fault_or_effect hstep
  · cases hhalt
  · rw [autoAdvance_status] at hhalt
    rcases effect_status hu with e | ⟨rfl, rfl⟩
    · rw [e, hs] at hhalt
      cases hhalt
    · have hir : Opcode.hlt = s.mem.read s.pc := (decode_opcode hd).trans (congrArg Prod.fst (fetch_eq_ok hf).2)
      exact ⟨hir.symm, autoAdvance_ended (by simp)⟩

end Machine
end Sys2Proof
end

section
/-! PROOFS. What each instruction does where it completes (41_alu.md to 46_halt.md): its effect, moved past its bytes or not by the
PC policy. -/

namespace Sys2Proof
namespace Machine

/-- With `sets_pc = 0` the loop moves pc of a running engine past the operand bytes (R84). -/
theorem exec_advances {i : Instr} {s u : State} (he : Effect i s u) (hu : u.status = .running)
    (hp : setsPc i.opcode = false := by simp [Instr.opcode, setsPc]) :
    exec i s = .next (u.setPc (s.pc + i.operandBytes.length + 1)) := by
  rw [exec_of_effect he, autoAdvance_running hu hp, pastInstr, operandBytes_length]

/-- With `sets_pc = 1` the loop leaves what the handler left (R85). -/
theorem exec_sets_pc {i : Instr} {s u : State} (he : Effect i s u)
    (hp : setsPc i.opcode = true := by simp [Instr.opcode, setsPc]) : exec i s = .next u := by
  rw [exec_of_effect he, autoAdvance_setsPc hp]

/-! One register written: the ALU operations and LDI. -/

theorem exec_writes_register {i : Instr} {s : State} {r v : Byte} {h : r.toNat < 8} (hs : s.status = .running)
    (he : Effect i s (s.setReg ⟨r.toNat, h⟩ v)) (hp : setsPc i.opcode = false := by simp [Instr.opcode, setsPc]) :
    ∃ t, exec i s = .next t ∧ t.reg ⟨r.toNat, h⟩ = v ∧ (∀ j : RegIdx, j.val ≠ r.toNat → t.reg j = s.reg j) ∧
      t = { s with regs := t.regs, pc := s.pc + i.operandBytes.length + 1 } :=
  ⟨_, exec_advances he hs hp, setReg_reg_same s _ v, fun _ hj => setReg_reg_ne (Fin.ne_of_val_ne hj), rfl⟩

theorem u8_natCast_toNat (n : Nat) : (u8 (n : Int)).toNat = n % 256 := by
  rw [u8_ofNat, BitVec.toNat_ofNat]

/-- Settles O20. -/
theorem addCompletes : Obligations.AddCompletes := by
  intro a b s ha hb hs
  obtain ⟨t, hexec, hv, hframe, ht⟩ := exec_writes_register hs (.add s ha hb)
  exact ⟨t, hexec, by rw [hv, ← Int.natCast_add, u8_natCast_toNat], hframe, ht⟩

/-- Settles O21. -/
theorem subCompletes : Obligations.SubCompletes := by
  intro a b s ha hb hs
  obtain ⟨t, hexec, hv, hframe, ht⟩ := exec_writes_register hs (.sub s ha hb)
  exact ⟨t, hexec, by rw [hv, u8_toNat], hframe, ht⟩

/-- Settles O22. -/
theorem mulCompletes : Obligations.MulCompletes := by
  intro a b s ha hb hs
  obtain ⟨t, hexec, hv, hframe, ht⟩ := exec_writes_register hs (.mul s ha hb)
  exact ⟨t, hexec, by rw [hv, ← Int.natCast_mul, u8_natCast_toNat], hframe, ht⟩

/-- Settles O23: the quotient of two bytes is a byte, so the reduction to 8 bits leaves it. -/
theorem divCompletes : Obligations.DivCompletes := by
  intro a b s ha hb hs hz
  obtain ⟨t, hexec, hv, hframe, ht⟩ := exec_writes_register hs (.div s ha hb hz)
  have hquot : (s.reg ⟨a.toNat, ha⟩).toNat / (s.reg ⟨b.toNat, hb⟩).toNat < 256 :=
    Nat.lt_of_le_of_lt (Nat.div_le_self _ _) (BitVec.isLt _)
  exact ⟨t, hexec, by rw [hv, u8_natCast_toNat, Nat.mod_eq_of_lt hquot], hframe, ht⟩

/-- Settles O25. -/
theorem ldiCompletes : Obligations.LdiCompletes := fun _ imm s h hs => exec_writes_register hs (.ldi s imm h)

/-- Settles O24: exactly one of equal, greater and less holds of two bytes. -/
theorem cmpCompletes : Obligations.CmpCompletes := by
  intro a b s ha hb hs
  refine ⟨_, exec_advances (.cmp s ha hb) hs, decide_eq_true_iff, decide_eq_true_iff, decide_eq_true_iff, ?_, rfl⟩
  rw [setPc_flags, setFlags_flags]
  rcases compareFlags_cases (s.reg ⟨a.toNat, ha⟩) (s.reg ⟨b.toNat, hb⟩) with ⟨_, e⟩ | ⟨_, e⟩ | ⟨_, e⟩ <;> rw [e] <;> rfl

/-- Settles O26. -/
theorem prnCompletes : Obligations.PrnCompletes := fun _ s h hs => exec_advances (.prn s h) hs

/-! The stack (R131, R132, R140, R141). -/

/-- The state with a byte pushed: SP one lower and the byte there (R131, R140). -/
abbrev State.pushed (s : State) (v : Byte) : State := s.spDown.setMem (s.mem.write (s.sp - 1).toNat v)

theorem pushed_sp (s : State) (v : Byte) : (s.pushed v).sp = s.sp - 1 := setReg_sp_same s (s.sp - 1)

/-- The byte pushed is read at the new SP, and every other byte as before (R50). -/
theorem pushed_read {s : State} (v : Byte) (hwf : s.mem.wf = true) (a : Nat) :
    (s.pushed v).mem.read a = if a = (s.pushed v).sp.toNat then v else s.mem.read a := by
  rw [pushed_sp, setMem_mem, Memory.read_write hwf]

/-- PUSH of a running engine pushes its register as it reads after the decrement (D8). -/
theorem exec_push {r : Byte} {s : State} (h : r.toNat < 8) (hs : s.status = .running) (hsp : 1 ≤ s.sp.toNat) :
    exec (.push r) s = .next ((s.pushed (s.spDown.reg ⟨r.toNat, h⟩)).setPc (s.pc + 2)) :=
  exec_advances (.push s h hsp) hs

/-- CALL pushes the return address and sets pc to its register as it reads after the push (D8). -/
theorem exec_call {r : Byte} {s : State} (h : r.toNat < 8) (hsp : 1 ≤ s.sp.toNat) :
    exec (.call r) s =
      .next ((s.pushed (BitVec.ofNat 8 (s.pc + 2))).setPc (s.spDown.reg ⟨r.toNat, h⟩).toNat) :=
  exec_sets_pc (.call s h hsp)

/-- A return address fits a byte wherever an instruction was fetched (R140). -/
theorem returnAddress_toNat {p : Nat} (hp : p ≤ 253) : (BitVec.ofNat 8 (p + 2)).toNat = p + 2 := by
  rw [BitVec.toNat_ofNat]
  omega

/-- What a push leaves: SP one lower with the byte there, and every other register and byte as before. -/
theorem pushed_leaves {s : State} (v : Byte) (hwf : s.mem.wf = true) (hsp : 1 ≤ s.sp.toNat) :
    (s.pushed v).sp.toNat + 1 = s.sp.toNat ∧ (∀ j : RegIdx, j ≠ 7 → (s.pushed v).reg j = s.reg j) ∧
      (s.pushed v).mem.read (s.pushed v).sp.toNat = v ∧
      ∀ a, a ≠ (s.pushed v).sp.toNat → (s.pushed v).mem.read a = s.mem.read a :=
  ⟨by rw [pushed_sp, byte_pred hsp], fun _ hj => setReg_reg_ne hj, by rw [pushed_read v hwf, if_pos rfl],
    fun a ha => by rw [pushed_read v hwf, if_neg ha]⟩

/-- Settles O27. -/
theorem pushCompletes : Obligations.PushCompletes := by
  intro r s h hs hwf hsp
  obtain ⟨hdown, hreg, htop, hrest⟩ := pushed_leaves (s.spDown.reg ⟨r.toNat, h⟩) hwf hsp
  exact ⟨_, exec_push h hs hsp, hdown, hreg, htop, hrest, rfl⟩

/-- Settles O29. -/
theorem callCompletes : Obligations.CallCompletes := by
  intro r s h hwf hp hsp
  obtain ⟨hdown, hreg, htop, hrest⟩ := pushed_leaves (BitVec.ofNat 8 (s.pc + 2)) hwf hsp
  exact ⟨_, exec_call h hsp, hdown, hreg, (congrArg BitVec.toNat htop).trans (returnAddress_toNat hp), hrest, rfl⟩

theorem setReg_sp_ne {s : State} {r v : Byte} (h : r.toNat < 8) (hr : r.toNat ≠ 7) : (s.setReg ⟨r.toNat, h⟩ v).sp = s.sp :=
  setReg_reg_ne (Fin.ne_of_val_ne (Ne.symm hr))

theorem spUp_sp_toNat {s : State} (hsp : s.sp.toNat ≤ 254) : s.spUp.sp.toNat = s.sp.toNat + 1 := by
  rw [State.spUp, setReg_sp_same, byte_succ hsp]

/-- Settles O28: POP moves SP up in the state whose register has the popped byte, and for r7 that register is SP (D8). -/
theorem popCompletes : Obligations.PopCompletes := by
  constructor
  · intro r s h hs hr hsp
    have hsp' : (s.setReg ⟨r.toNat, h⟩ (s.mem.read s.sp.toNat)).sp = s.sp := setReg_sp_ne h hr
    have hle : (s.setReg ⟨r.toNat, h⟩ (s.mem.read s.sp.toNat)).sp.toNat ≤ 254 := by rwa [hsp']
    refine ⟨_, exec_advances (.pop s h hle) hs, ?_, ?_, fun j hj hj7 => ?_, rfl⟩
    · rw [setPc_reg, setReg_reg_ne (Fin.ne_of_val_ne hr), setReg_reg_same]
    · rw [setPc_sp, spUp_sp_toNat hle, hsp']
    · rw [setPc_reg, setReg_reg_ne hj7, setReg_reg_ne (Fin.ne_of_val_ne hj)]
  · intro s hs hv
    have h7 : (7 : Byte).toNat < 8 := by decide
    have hsp' : (s.setReg ⟨(7 : Byte).toNat, h7⟩ (s.mem.read s.sp.toNat)).sp = s.mem.read s.sp.toNat := setReg_sp_same s _
    have hle : (s.setReg ⟨(7 : Byte).toNat, h7⟩ (s.mem.read s.sp.toNat)).sp.toNat ≤ 254 := by rwa [hsp']
    refine ⟨_, exec_advances (.pop s h7 hle) hs, ?_, fun j hj => ?_, rfl⟩
    · rw [setPc_sp, spUp_sp_toNat hle, hsp']
    · rw [setPc_reg, setReg_reg_ne hj]
      exact setReg_reg_ne hj

/-- Settles O30. -/
theorem retCompletes : Obligations.RetCompletes := fun s hsp =>
  ⟨_, exec_sets_pc (.ret s hsp), spUp_sp_toNat hsp, fun _ hj => setReg_reg_ne hj, rfl⟩

/-! Jumps and HLT. -/

/-- Settles O31. -/
theorem jmpCompletes : Obligations.JmpCompletes := fun _ s h => exec_sets_pc (.jmp s h)

/-- Settles O32. -/
theorem jeqCompletes : Obligations.JeqCompletes := fun _ s h => exec_sets_pc (.jeq s h)

/-- Settles O33. -/
theorem jneCompletes : Obligations.JneCompletes := fun _ s h => exec_sets_pc (.jne s h)

/-- Settles O34: the auto-advance needs the status Running. -/
theorem hltCompletes : Obligations.HltCompletes := by
  intro s
  rw [exec_of_effect (.hlt s), autoAdvance_ended (by simp)]
  rfl

/-! Where pc stands after the instructions that set it (R85). -/

/-- An instruction that leaves the engine Running had its effect. -/
theorem exec_running_effect {i : Instr} {s t : State} (hexec : exec i s = .next t) (ht : t.status = .running) :
    ∃ u, Effect i s u ∧ u.status = .running ∧ t = autoAdvance i.opcode s.pc u := by
  rcases exec_next_cases hexec with ⟨u, hu, rfl⟩ | ⟨c, _, _, rfl⟩
  · exact ⟨u, hu, by rwa [autoAdvance_status] at ht, rfl⟩
  · exact absurd ht (takeFault_status_ne_running c s)

/-- The same for an instruction with `sets_pc = 1`, which the loop leaves as it is. -/
theorem exec_running_sets_pc {i : Instr} {s t : State} (hexec : exec i s = .next t) (ht : t.status = .running)
    (hp : setsPc i.opcode = true := by simp [Instr.opcode, setsPc]) : Effect i s t := by
  obtain ⟨u, hu, _, rfl⟩ := exec_running_effect hexec ht
  rwa [autoAdvance_setsPc hp]

/-- Settles O19: each of the five leaves the pc its own effect says. -/
theorem pcSettersSetPc : Obligations.PcSettersSetPc := by
  refine ⟨fun ir p u hp => autoAdvance_setsPc hp, fun r s t h ht => ?_, rfl, rfl⟩
  refine ⟨fun hcall => ?_, fun hret => ?_, fun hjmp => ?_, fun hjeq => ?_, fun hjne => ?_⟩
  · cases exec_running_sets_pc hcall ht
    rfl
  · cases exec_running_sets_pc hret ht
    rfl
  · cases exec_running_sets_pc hjmp ht
    rfl
  · cases exec_running_sets_pc hjeq ht
    rfl
  · cases exec_running_sets_pc hjne ht
    rfl

end Machine
end Sys2Proof
end

section
/-! PROOFS. Where instructions fault (R171, R172, R177): each statement names a cause of `Raises`, and `exec` takes it. -/

namespace Sys2Proof
namespace Machine

theorem regOperands_of_mem_one {r imm : Byte} {i : Instr}
    (hi : i ∈ [Instr.ldi r imm, .prn r, .push r, .pop r, .call r, .jmp r, .jeq r, .jne r]) : i.regOperands = [r] := by
  revert i
  simp [Instr.regOperands]

theorem regOperands_of_mem_two {a b : Byte} {i : Instr} (hi : i ∈ [Instr.add a b, .sub a b, .mul a b, .div a b, .cmp a b]) :
    i.regOperands = [a, b] := by
  revert i
  simp [Instr.regOperands]

/-- Settles O35: the instructions of each list have the same register operands, and the first bad one is raised. -/
theorem badRegisterOperandFaults : Obligations.BadRegisterOperandFaults := by
  refine ⟨fun r imm s hr i hi => exec_firstBad s ?_, fun a b s ha i hi => exec_firstBad s ?_,
    fun a b s ha hb i hi => exec_firstBad s ?_⟩
  · rw [regOperands_of_mem_one hi]
    exact firstBad_one.mpr ⟨hr, rfl⟩
  · rw [regOperands_of_mem_two hi]
    exact firstBad_two.mpr (.inl ⟨ha, rfl⟩)
  · rw [regOperands_of_mem_two hi]
    exact firstBad_two.mpr (.inr ⟨ha, hb, rfl⟩)

/-- Settles O36. -/
theorem zeroDivisorFaults : Obligations.ZeroDivisorFaults := fun _ _ s ha hb hz =>
  ⟨_, rfl, rfl, exec_of_raises (.div s ha hb hz)⟩

/-- Settles O37: POP moves SP in the state that already has the popped byte, which for r7 is SP itself (D8). -/
theorem stackPointerRangeFaults : Obligations.StackPointerRangeFaults := by
  refine ⟨fun r s hr hsp i hi => ?_, fun s hsp => exec_of_raises (.ret s hsp), fun r s hr hsp => ?_, fun s hv => ?_⟩
  · rcases List.mem_pair.mp hi with rfl | rfl
    · exact exec_of_raises (.push s hr hsp)
    · exact exec_of_raises (.call s hr hsp)
  · refine exec_of_raises (.pop s (Nat.lt_succ_of_lt hr) ?_)
    rw [setReg_sp_ne _ (Nat.ne_of_lt hr), hsp]
  · refine exec_of_raises (.pop s (by decide) ?_)
    exact (congrArg BitVec.toNat (setReg_sp_same s _)).trans hv

end Machine
end Sys2Proof
end

section
/-! PROOFS. What no instruction but the named ones does (10_state.md section 8, R28, R32, R43): a fault taken changes nothing but the
status, and an effect changes what its frame allows. -/

namespace Sys2Proof
namespace Machine

/-- Settles O38. -/
theorem registerFrame : Obligations.RegisterFrame := by
  intro i s t j hexec hw
  rcases exec_next_cases hexec with ⟨u, hu, rfl⟩ | ⟨c, _, _, rfl⟩
  · rw [autoAdvance_reg, effect_reg hu hw]
  · exact takeFault_reg s j c

/-- Settles O39. -/
theorem onlyCmpWritesFlags : Obligations.OnlyCmpWritesFlags := by
  intro i s t hexec hcmp
  rcases exec_next_cases hexec with ⟨u, hu, rfl⟩ | ⟨c, _, _, rfl⟩
  · rw [autoAdvance_flags]
    exact (effect_flags hu).resolve_right fun ⟨a, b, _, _, hi, _⟩ => hcmp a b hi
  · exact takeFault_flags s c

/-- Settles O40: with SP 0 neither PUSH nor CALL has an effect, and `spDec` answers the SP they write at. -/
theorem memoryFrame : Obligations.MemoryFrame := by
  intro i s t hwf hexec
  rcases exec_next_cases hexec with ⟨u, hu, rfl⟩ | ⟨c, _, _, rfl⟩
  · rw [autoAdvance_mem]
    rcases effect_mem hu with ⟨hno, e⟩ | ⟨hyes, hsp, v, e⟩ <;> rw [e]
    · exact ⟨fun _ _ => rfl, fun _ _ _ _ _ => rfl, fun _ _ _ => rfl⟩
    · refine ⟨fun hno => absurd hyes (ne_true_of_eq_false hno), fun _ d hd a ha => ?_, fun _ hzero => by omega⟩
      rw [spDec_ok hsp] at hd
      cases hd
      rw [setReg_sp_same] at ha
      rw [Memory.read_write hwf, if_neg ha]
  · exact ⟨fun _ _ => rfl, fun _ _ _ _ _ => rfl, fun _ _ _ => rfl⟩

theorem exec_out {i : Instr} {s t : State} (hexec : exec i s = .next t) :
    t.out = s.out ∨ ∃ (r : Byte) (h : r.toNat < 8), i = .prn r ∧ t.out = s.out ++ [s.reg ⟨r.toNat, h⟩] := by
  rcases exec_next_cases hexec with ⟨u, hu, rfl⟩ | ⟨c, _, _, rfl⟩
  · rw [autoAdvance_out]
    exact effect_out hu
  · exact .inl rfl

/-- Settles O41. -/
theorem onlyPrnEmits : Obligations.OnlyPrnEmits := by
  refine ⟨fun i s t => exec_out, fun s t hstep => ?_⟩
  obtain ⟨_, ⟨c, _, rfl⟩ | ⟨_, _, _, i, u, _, _, hu, rfl⟩⟩ := step_fault_or_effect hstep
  · exact List.prefix_refl _
  · rw [autoAdvance_out]
    rcases effect_out hu with e | ⟨r, h, _, e⟩ <;> rw [e]
    exact List.prefix_append _ _

end Machine
end Sys2Proof
end

section
/-! PROOFS. What an instruction reads (R28, R106): no instruction reads G or L, and an ALU instruction reads its two registers only. -/

namespace Sys2Proof
namespace Machine

/-! Two states that differ in FL and agree on E. -/

/-- The same effect where only G and L differ: CMP writes the same flags, and no other instruction writes any. -/
theorem effect_setFlags {i : Instr} {s u : State} {f : Flags} (he : Effect i s u) (hf : f.e = s.flags.e) :
    ∃ f', Effect i (s.setFlags f) (u.setFlags f') ∧ f'.e = u.flags.e := by
  cases he with
  | hlt => exact ⟨f, .hlt _, hf⟩
  | ldi _ imm h => exact ⟨f, .ldi _ imm h, hf⟩
  | prn _ h => exact ⟨f, .prn (s.setFlags f) h, hf⟩
  | push _ h hsp => exact ⟨f, .push (s.setFlags f) h hsp, hf⟩
  | pop _ h hsp => exact ⟨f, .pop (s.setFlags f) h hsp, hf⟩
  | call _ h hsp => exact ⟨f, .call (s.setFlags f) h hsp, hf⟩
  | ret _ hsp => exact ⟨f, .ret (s.setFlags f) hsp, hf⟩
  | jmp _ h => exact ⟨f, .jmp (s.setFlags f) h, hf⟩
  | jeq _ h =>
    have he := Effect.jeq (s.setFlags f) h
    rw [setFlags_flags, hf] at he
    exact ⟨f, he, hf⟩
  | jne _ h =>
    have he := Effect.jne (s.setFlags f) h
    rw [setFlags_flags, hf] at he
    exact ⟨f, he, hf⟩
  | add _ ha hb => exact ⟨f, .add (s.setFlags f) ha hb, hf⟩
  | sub _ ha hb => exact ⟨f, .sub (s.setFlags f) ha hb, hf⟩
  | mul _ ha hb => exact ⟨f, .mul (s.setFlags f) ha hb, hf⟩
  | div _ ha hb hz => exact ⟨f, .div (s.setFlags f) ha hb hz, hf⟩
  | cmp _ ha hb => exact ⟨_, .cmp (s.setFlags f) ha hb, rfl⟩

/-- No cause depends on FL. -/
theorem raises_setFlags {i : Instr} {s : State} {c : FaultCause} (f : Flags) (hr : Raises i s c) : Raises i (s.setFlags f) c := by
  cases hr with
  | register _ h => exact .register (s.setFlags f) h
  | div _ ha hb hz => exact .div (s.setFlags f) ha hb hz
  | push _ h hsp => exact .push (s.setFlags f) h hsp
  | call _ h hsp => exact .call (s.setFlags f) h hsp
  | pop _ h hsp => exact .pop (s.setFlags f) h hsp
  | ret _ hsp => exact .ret (s.setFlags f) hsp

theorem autoAdvance_setFlags (ir : Byte) (p : Nat) (s : State) (f : Flags) :
    autoAdvance ir p (s.setFlags f) = (autoAdvance ir p s).setFlags f := by
  by_cases h : s.status = .running ∧ setsPc ir = false
  · obtain ⟨hs, hp⟩ := h
    rw [autoAdvance_running hs hp, autoAdvance_running (s := s.setFlags f) hs hp]
    rfl
  · rw [autoAdvance, autoAdvance, if_neg h]
    exact if_neg h

theorem exec_setFlags {i : Instr} {s t : State} {f : Flags} (hexec : exec i s = .next t) (hf : f.e = s.flags.e) :
    ∃ f', exec i (s.setFlags f) = .next (t.setFlags f') ∧ f'.e = t.flags.e := by
  rcases exec_effect_or_raises i s with ⟨u, hu, e⟩ | ⟨c, hc, e⟩ <;> rw [e] at hexec <;> cases hexec
  · obtain ⟨f', hu', hf'⟩ := effect_setFlags hu hf
    exact ⟨f', by rw [exec_of_effect hu', autoAdvance_setFlags, setFlags_pc], by rw [hf', autoAdvance_flags]⟩
  · exact ⟨f, exec_of_raises (raises_setFlags f hc), hf⟩

/-- The front half of a step does not read FL at all. -/
theorem nextInstr_setFlags (s : State) (f : Flags) : nextInstr (s.setFlags f) = nextInstr s := rfl

/-- Settles O43. -/
theorem onlyEqualFlagIsRead : Obligations.OnlyEqualFlagIsRead := by
  intro s t g l hstep
  have hsame := nextInstr_setFlags s ⟨s.flags.e, g, l⟩
  cases hn : nextInstr s with
  | ended =>
    rw [step_ended hn] at hstep
    cases hstep
  | raised c =>
    rw [step_raised hn] at hstep
    cases hstep
    exact ⟨_, step_raised (hsame.trans hn), rfl, rfl⟩
  | decoded i =>
    rw [step_decoded hn] at hstep
    obtain ⟨f', hexec, hf'⟩ := exec_setFlags (f := ⟨s.flags.e, g, l⟩) hstep rfl
    exact ⟨_, (step_decoded (hsame.trans hn)).trans hexec, hf', rfl⟩

/-! Two states that agree on the registers an ALU instruction names. -/

theorem reg_eq_of_operand {s s' : State} {bs : List Byte} {r : Byte} (h : r.toNat < 8)
    (hreg : ∀ j : RegIdx, BitVec.ofNat 8 j.val ∈ bs → s'.reg j = s.reg j) (hr : r ∈ bs) :
    s'.reg ⟨r.toNat, h⟩ = s.reg ⟨r.toNat, h⟩ :=
  hreg ⟨r.toNat, h⟩ (by rwa [BitVec.ofNat_toNat, BitVec.setWidth_eq])

theorem setReg_reg_written {s s' : State} {r v : Byte} {h : r.toNat < 8} {j : RegIdx} (hw : (r.toNat == j.val) = true) :
    (s'.setReg ⟨r.toNat, h⟩ v).reg j = (s.setReg ⟨r.toNat, h⟩ v).reg j := by
  obtain rfl : (⟨r.toNat, h⟩ : RegIdx) = j := Fin.ext (beq_iff_eq.mp hw)
  rw [setReg_reg_same, setReg_reg_same]

/-- What a state's ALU effect leaves of another state that agrees on the two registers: the same result, and nothing else moved. -/
theorem effect_alu_agrees {i : Instr} {s s' u : State} (halu : isAlu i.opcode = true)
    (hreg : ∀ j : RegIdx, BitVec.ofNat 8 j.val ∈ i.operandBytes → s'.reg j = s.reg j) (he : Effect i s u) :
    ∃ u', Effect i s' u' ∧ u'.status = s'.status ∧ (∀ j, writesReg i j = true → u'.reg j = u.reg j) ∧
      ((∃ a b, i = .cmp a b) → u'.flags = u.flags) ∧ u.mem = s.mem ∧ u.out = s.out := by
  have hfst {a b : Byte} (h : a.toNat < 8) (hops : i.operandBytes = [a, b]) : s'.reg ⟨a.toNat, h⟩ = s.reg ⟨a.toNat, h⟩ :=
    reg_eq_of_operand h hreg (by simp [hops])
  have hsnd {a b : Byte} (h : b.toNat < 8) (hops : i.operandBytes = [a, b]) : s'.reg ⟨b.toNat, h⟩ = s.reg ⟨b.toNat, h⟩ :=
    reg_eq_of_operand h hreg (by simp [hops])
  cases he with
  | add _ ha hb =>
    refine ⟨_, .add s' ha hb, rfl, fun j hw => ?_, nofun, rfl, rfl⟩
    rw [hfst ha rfl, hsnd hb rfl, setReg_reg_written hw]
  | sub _ ha hb =>
    refine ⟨_, .sub s' ha hb, rfl, fun j hw => ?_, nofun, rfl, rfl⟩
    rw [hfst ha rfl, hsnd hb rfl, setReg_reg_written hw]
  | mul _ ha hb =>
    refine ⟨_, .mul s' ha hb, rfl, fun j hw => ?_, nofun, rfl, rfl⟩
    rw [hfst ha rfl, hsnd hb rfl, setReg_reg_written hw]
  | div _ ha hb hz =>
    refine ⟨_, .div s' ha hb (by rwa [hsnd hb rfl]), rfl, fun j hw => ?_, nofun, rfl, rfl⟩
    rw [hfst ha rfl, hsnd hb rfl, setReg_reg_written hw]
  | cmp _ ha hb =>
    refine ⟨_, .cmp s' ha hb, rfl, nofun, fun _ => ?_, rfl, rfl⟩
    rw [setFlags_flags, setFlags_flags, hfst ha rfl, hsnd hb rfl]
  | _ => simp [Instr.opcode, isAlu] at halu

/-- No ALU instruction sets pc, and each has two operand bytes (R63, R67). -/
theorem alu_pc_policy {i : Instr} (halu : isAlu i.opcode = true) : setsPc i.opcode = false ∧ i.operandBytes.length = 2 := by
  have hrr := (isAlu_opcode_iff i).mp halu
  cases i with
  | add | sub | mul | div | cmp => exact ⟨by simp [Instr.opcode, setsPc], rfl⟩
  | _ => cases hrr

/-- Settles O44. -/
theorem aluReadsOnlyItsOperands : Obligations.AluReadsOnlyItsOperands := by
  intro i s s' t halu hs hs' hreg hexec ht
  obtain ⟨hp, hlen⟩ := alu_pc_policy halu
  obtain ⟨u, hu, hrun, rfl⟩ := exec_running_effect hexec ht
  obtain ⟨u', hu', hstatus, hregs, hflags, hmem, hout⟩ := effect_alu_agrees halu hreg hu
  refine ⟨_, exec_advances hu' (hstatus.trans hs') hp, hstatus.trans hs', ?_⟩
  rw [autoAdvance_running hrun hp, pastInstr, ← operandBytes_length, hlen]
  exact ⟨hregs, hflags, hmem, hout, rfl⟩

end Machine
end Sys2Proof
end

section
/-! PROOFS. Memory as its bytes (20_memory.md): canonical memories are equal when they read alike, the next fetch sees what was
stored, and the access list of a step explains its memory. -/

namespace Sys2Proof
namespace Machine

/-! The canonical form (R40). -/

theorem Memory.read_cons_same (a : Nat) (v : Byte) (m : Memory) : Memory.read ((a, v) :: m) a = v := if_pos rfl

theorem Memory.read_cons_ne {a b : Nat} (v : Byte) (m : Memory) (h : b ≠ a) : Memory.read ((a, v) :: m) b = m.read b := if_neg h

theorem Memory.wfFrom_cons {lo a : Nat} {v : Byte} {m : Memory} :
    Memory.wfFrom lo ((a, v) :: m) = true ↔ lo ≤ a ∧ a < 256 ∧ v ≠ Config.erased ∧ Memory.wfFrom (a + 1) m = true := by
  simp only [Memory.wfFrom, Bool.and_eq_true, decide_eq_true_eq, and_assoc]

/-- A canonical memory that lists an address reads there what no canonical memory beginning past it does. -/
theorem Memory.read_head_ne {lo a : Nat} {v : Byte} {m m' : Memory} (h : Memory.wfFrom lo ((a, v) :: m) = true)
    (h' : Memory.wfFrom (a + 1) m' = true) : Memory.read ((a, v) :: m) a ≠ m'.read a := by
  obtain ⟨_, _, hv, _⟩ := Memory.wfFrom_cons.mp h
  rwa [Memory.read_cons_same, Memory.read_below h' (Nat.lt_succ_self a)]

/-- Along both lists at once: the first address either lists is listed by both, with the byte both read there. -/
theorem Memory.eq_of_read_eq {m m' : Memory} {lo : Nat} (h : Memory.wfFrom lo m = true) (h' : Memory.wfFrom lo m' = true)
    (hread : ∀ a, a < 256 → m.read a = m'.read a) : m = m' := by
  induction m generalizing m' lo with
  | nil =>
    cases m' with
    | nil => rfl
    | cons p rest =>
      obtain ⟨_, hlt, _, _⟩ := Memory.wfFrom_cons.mp h'
      exact absurd (hread p.1 hlt).symm (Memory.read_head_ne h' rfl)
  | cons p rest ih =>
    obtain ⟨a, v⟩ := p
    obtain ⟨_, hlt, hv, hrest⟩ := Memory.wfFrom_cons.mp h
    cases m' with
    | nil => exact absurd (hread a hlt) (Memory.read_head_ne h rfl)
    | cons q rest' =>
      obtain ⟨b, w⟩ := q
      obtain ⟨_, hlt', hw, hrest'⟩ := Memory.wfFrom_cons.mp h'
      rcases Nat.lt_trichotomy a b with hab | rfl | hba
      · exact absurd (hread a hlt) (Memory.read_head_ne h (Memory.wfFrom_cons.mpr ⟨hab, hlt', hw, hrest'⟩))
      · obtain rfl : v = w := by simpa only [Memory.read_cons_same] using hread a hlt
        rw [ih hrest hrest' fun c hc => ?_]
        by_cases hca : c = a
        · rw [hca, Memory.read_below hrest (Nat.lt_succ_self a), Memory.read_below hrest' (Nat.lt_succ_self a)]
        · simpa only [Memory.read_cons_ne v _ hca] using hread c hc
      · exact absurd (hread b hlt').symm (Memory.read_head_ne h' (Memory.wfFrom_cons.mpr ⟨hba, hlt, hv, hrest⟩))

/-- Settles O46. -/
theorem canonicalMemoryIsItsBytes : Obligations.CanonicalMemoryIsItsBytes := fun _ _ h h' hread =>
  Memory.eq_of_read_eq h h' hread

/-! A stored byte and the next fetch (R53, R206). -/

/-- A fetch from a state with the memory and SP of a push reads the pushed byte at SP and the bytes of before elsewhere. -/
theorem fetch_after_push {s t : State} {v : Byte} {p : Nat} (hwf : s.mem.wf = true) (hmem : t.mem = (s.pushed v).mem)
    (hsp : t.sp = (s.pushed v).sp) (hp : p ≤ 253) :
    fetch { t with pc := p } =
      .ok (if p = t.sp.toNat then v else s.mem.read p, if p + 1 = t.sp.toNat then v else s.mem.read (p + 1),
        if p + 2 = t.sp.toNat then v else s.mem.read (p + 2)) := by
  have hread (a : Nat) : t.mem.read a = if a = t.sp.toNat then v else s.mem.read a := by rw [hmem, hsp, pushed_read v hwf]
  rw [← hread, ← hread, ← hread]
  exact fetch_ok (s := t.setPc p) hp

/-- Settles O47: PUSH and CALL leave the memory and SP of a push, of the register and of the return address. -/
theorem fetchSeesPushedByte : Obligations.FetchSeesPushedByte := by
  constructor
  · intro r s t h p hwf hexec hsp hp
    rw [exec_of_effect (.push s h hsp)] at hexec
    cases hexec
    rw [autoAdvance_reg]
    exact fetch_after_push hwf (autoAdvance_mem ..) (autoAdvance_sp ..) hp
  · intro r s t p h hwf hexec hsp hpc hp
    rw [exec_call h hsp] at hexec
    cases hexec
    exact ⟨BitVec.ofNat 8 (s.pc + 2), returnAddress_toNat hpc, fetch_after_push hwf rfl rfl hp⟩

/-! The access list of a step (R43, R49). -/

theorem replay_append (l l' : List Access) (m : Memory) :
    Memory.replay (l ++ l') m = Memory.replay l' (Memory.replay l m) := by
  induction l generalizing m with
  | nil => rfl
  | cons x rest ih => cases x <;> exact ih _

theorem replay_reads (as : List Nat) (m : Memory) : Memory.replay (as.map Access.read) m = m := by
  induction as with
  | nil => rfl
  | cons a rest ih => exact ih

theorem replay_fetchAccesses (s : State) (m : Memory) : Memory.replay (fetchAccesses s) m = m := replay_reads _ m

/-- An instruction makes no data access, or reads or writes one byte of memory (R43). -/
theorem dataAccesses_cases (i : Instr) (s : State) :
    dataAccesses i s = [] ∨ (∃ a : Byte, dataAccesses i s = [.read a.toNat]) ∨
      ∃ a v : Byte, dataAccesses i s = [.write a.toNat v] := by
  cases i with
  | push r | call r =>
    simp only [dataAccesses]
    split
    · exact .inr (.inr ⟨_, _, rfl⟩)
    · exact .inl rfl
  | pop r =>
    simp only [dataAccesses]
    split
    · exact .inr (.inl ⟨_, rfl⟩)
    · exact .inl rfl
  | ret => exact .inr (.inl ⟨_, rfl⟩)
  | _ => exact .inl rfl

/-- Where an instruction has an effect, its data access makes the memory that effect leaves. -/
theorem effect_dataAccesses {i : Instr} {s u : State} (he : Effect i s u) : u.mem = Memory.replay (dataAccesses i s) s.mem := by
  cases he with
  | push _ h hsp | call _ h hsp =>
    simp only [dataAccesses, regOperand_ok h, spDec_ok hsp, setReg_sp_same, pastInstr_two (ir := Opcode.call) rfl, u8_ofNat]
    rfl
  | pop _ h =>
    simp only [dataAccesses, regOperand_ok h]
    rfl
  | _ => rfl

/-- An instruction that raises stores nothing (R87). -/
theorem raises_dataAccesses {i : Instr} {s : State} {c : FaultCause} (hr : Raises i s c) :
    Memory.replay (dataAccesses i s) s.mem = s.mem := by
  cases hr with
  | register _ h =>
    cases i with
    | push r | call r | pop r => simp only [dataAccesses, regOperand_bad (firstBad_one.mp h).1]; rfl
    | _ => rfl
  | push _ h hsp | call _ h hsp => simp only [dataAccesses, regOperand_ok h, spDec_zero hsp]; rfl
  | pop _ h => simp only [dataAccesses, regOperand_ok h]; rfl
  | div | ret => rfl

theorem exec_dataAccesses {i : Instr} {s t : State} (hexec : exec i s = .next t) :
    t.mem = Memory.replay (dataAccesses i s) s.mem := by
  rcases exec_effect_or_raises i s with ⟨u, hu, e⟩ | ⟨c, hc, e⟩ <;> rw [e] at hexec <;> cases hexec
  · rw [autoAdvance_mem, effect_dataAccesses hu]
  · rw [takeFault_mem, raises_dataAccesses hc]

/-- Settles O48: the fetch only reads, so the memory is what the data access makes of it. -/
theorem accessesExplainMemory : Obligations.AccessesExplainMemory := by
  intro s t hstep
  cases hn : nextInstr s with
  | ended =>
    rw [step_ended hn] at hstep
    cases hstep
  | raised c =>
    rw [step_raised hn] at hstep
    cases hstep
    rw [stepAccesses, hn, takeFault_mem]
    exact (replay_fetchAccesses s s.mem).symm
  | decoded i =>
    rw [step_decoded hn] at hstep
    rw [stepAccesses, hn]
    simp only [replay_append, replay_fetchAccesses]
    exact exec_dataAccesses hstep

theorem fetchAccesses_eq {s : State} (hp : s.pc ≤ 253) : fetchAccesses s = [.read s.pc, .read (s.pc + 1), .read (s.pc + 2)] := by
  have h0 : s.pc ≤ 255 := by omega
  have h1 : s.pc + 1 ≤ 255 := by omega
  have h2 : s.pc + 2 ≤ 255 := by omega
  simp [fetchAccesses, h0, h1, h2]

/-- Every step of a running engine makes the fetch reads, then no access or the data access of an instruction. -/
theorem stepAccesses_running {s : State} (hs : s.status = .running) :
    stepAccesses s = fetchAccesses s ∨ ∃ i, stepAccesses s = fetchAccesses s ++ dataAccesses i s := by
  cases hn : nextInstr s with
  | ended =>
    obtain ⟨t, ht⟩ := runningStepAnswersNextState s hs
    rw [step_ended hn] at ht
    cases ht
  | raised c => exact .inl (by rw [stepAccesses, hn])
  | decoded i => exact .inr ⟨i, by rw [stepAccesses, hn]⟩

/-- Settles O49. -/
theorem fetchReadsComeFirst : Obligations.FetchReadsComeFirst := by
  intro s hs hp
  rw [← fetchAccesses_eq hp]
  rcases stepAccesses_running hs with e | ⟨i, e⟩
  · exact ⟨[], by rw [e, List.append_nil], by simp⟩
  · refine ⟨_, e, ?_⟩
    rcases dataAccesses_cases i s with e | ⟨a, e⟩ | ⟨a, v, e⟩ <;> rw [e]
    · simp
    · simpa using byte_le a
    · simpa using byte_le a

/-- Settles O1. -/
theorem resetHoldsItsValues : Obligations.ResetHoldsItsValues :=
  ⟨reset_mem_read, by decide, rfl, rfl, rfl, rfl⟩

end Machine
end Sys2Proof
end

section
/-! PROOFS. Laws over two instructions and over a run: PUSH then POP (R133), CALL then RET (R142), and where runs end (R90, R210). -/

namespace Sys2Proof
namespace Machine

/-- Moving SP up after a push leaves the registers as before it. -/
theorem pushed_spUp_regs (s : State) (v : Byte) : (s.pushed v).spUp.regs = s.regs := by
  have hback : ((s.setReg Config.spIndex (s.sp - 1)).setReg Config.spIndex (s.reg Config.spIndex)).regs = s.regs := by
    rw [setReg_setReg, setReg_self]
  rw [State.spUp, pushed_sp, BitVec.sub_add_cancel]
  exact hback

theorem pushed_sp_le {s : State} (v : Byte) (hsp : 1 ≤ s.sp.toNat) : (s.pushed v).sp.toNat ≤ 254 := by
  have hpred := byte_pred hsp
  have hle := byte_le s.sp
  rw [pushed_sp]
  omega

/-- POP into a register that already holds the byte at SP only moves SP and pc. -/
theorem exec_pop_held {r : Byte} {s : State} (h : r.toNat < 8) (hs : s.status = .running) (hsp : s.sp.toNat ≤ 254)
    (hheld : s.mem.read s.sp.toNat = s.reg ⟨r.toNat, h⟩) : exec (.pop r) s = .next (s.spUp.setPc (s.pc + 2)) := by
  have hsame : s.setReg ⟨r.toNat, h⟩ (s.mem.read s.sp.toNat) = s := by rw [hheld, setReg_self]
  have hpop := Effect.pop s h (by rwa [hsame])
  rw [hsame] at hpop
  exact exec_advances hpop hs

/-- Settles O50: the byte pushed is the register as it reads after the push, for r7 too, so the POP finds it there already. -/
theorem pushPopRestores : Obligations.PushPopRestores := by
  intro r s h hs hwf hsp
  obtain ⟨v, hv⟩ : ∃ v, v = s.spDown.reg ⟨r.toNat, h⟩ := ⟨_, rfl⟩
  obtain ⟨_, _, htop, _⟩ := pushed_leaves v hwf hsp
  have hpush : exec (.push r) s = .next ((s.pushed v).setPc (s.pc + 2)) := by rw [exec_push h hs hsp, hv]
  have hpop := exec_pop_held (s := (s.pushed v).setPc (s.pc + 2)) h hs (pushed_sp_le v hsp) (htop.trans hv)
  exact ⟨_, _, hpush, hpop, pushed_spUp_regs s v, rfl⟩

/-- Settles O51. -/
theorem callRetResumes : Obligations.CallRetResumes := by
  intro r s t u h hwf hp hsp hcall husp hread
  rw [exec_call h hsp] at hcall
  cases hcall
  obtain ⟨_, _, htop, _⟩ := pushed_leaves (BitVec.ofNat 8 (s.pc + 2)) hwf hsp
  have husp' : u.sp = (s.pushed (BitVec.ofNat 8 (s.pc + 2))).sp := husp
  have hle : u.sp.toNat ≤ 254 := by rw [husp']; exact pushed_sp_le _ hsp
  refine ⟨_, exec_sets_pc (.ret u hle), ?_, ?_⟩
  · exact (congrArg BitVec.toNat (hread.trans htop)).trans (returnAddress_toNat hp)
  · rw [setPc_sp, State.spUp, setReg_sp_same, husp', pushed_sp, BitVec.sub_add_cancel]

/-! A run (R90, R210). -/

theorem runToEnd_next {n : Nat} {s t : State} (h : step s = .next t) : runToEnd (n + 1) s = runToEnd n t := by
  rw [runToEnd, h]

theorem runToEnd_ended {s : State} (hs : s.status ≠ .running) (n : Nat) : runToEnd n s = some s := by
  cases n with
  | zero => exact if_neg hs
  | succ n => rw [runToEnd, step_ended (nextInstr_ended hs)]

theorem runToEnd_zero_running {s : State} (hs : s.status = .running) : runToEnd 0 s = none := if_pos hs

theorem status_ended {st : Status} (h : st ≠ .running) : st = .halted ∨ ∃ kind info, st = .error kind info := by
  cases st with
  | running => exact absurd rfl h
  | halted => exact .inl rfl
  | error kind info => exact .inr ⟨kind, info, rfl⟩

/-- Settles O52: an ended state is its own end under any budget, and a running one steps to a state the budget left ends. -/
theorem runEndsInHaltedOrError : Obligations.RunEndsInHaltedOrError := by
  intro n
  induction n with
  | zero =>
    intro s t hrun
    by_cases hs : s.status = .running
    · rw [runToEnd_zero_running hs] at hrun
      cases hrun
    · rw [runToEnd_ended hs] at hrun
      cases hrun
      exact ⟨status_ended hs, fun k => runToEnd_ended hs _⟩
  | succ n ih =>
    intro s t hrun
    by_cases hs : s.status = .running
    · obtain ⟨u, hu⟩ := runningStepAnswersNextState s hs
      rw [runToEnd_next hu] at hrun
      obtain ⟨hend, hmore⟩ := ih u t hrun
      exact ⟨hend, fun k => by rw [Nat.succ_add_eq_add_succ, Nat.add_succ, runToEnd_next hu, hmore]⟩
    · rw [runToEnd_ended hs] at hrun
      cases hrun
      exact ⟨status_ended hs, fun k => runToEnd_ended hs _⟩

/-- A running state that steps to itself has no end. -/
theorem runToEnd_fixed {s : State} (hs : s.status = .running) (hstep : step s = .next s) (n : Nat) : runToEnd n s = none := by
  induction n with
  | zero => exact runToEnd_zero_running hs
  | succ n ih => rw [runToEnd_next hstep, ih]

/-- Settles O53: the JMP steps to the state it began in. -/
theorem jumpToItselfNeverEnds : Obligations.JumpToItselfNeverEnds := by
  intro r s h n hs hp hir hop hself
  have hdec : decode Opcode.jmp r (s.mem.read (s.pc + 2)) = .ok (.jmp r) :=
    decodeWindow_encode_append (.jmp r) [s.mem.read (s.pc + 2)]
  have hfetch : fetch s = .ok (Opcode.jmp, r, s.mem.read (s.pc + 2)) := by rw [fetch_ok hp, hir, hop]
  refine runToEnd_fixed hs ?_ n
  rw [step_decoded (nextInstr_decoded hs hfetch hdec), jmpCompletes r s h, hself]

end Machine
end Sys2Proof
end

section
/-! PROOFS. Loading (70_reset_and_hazards.md section 2): what a load refuses (R201, R203), and that the image text of bytes is read back
as those bytes (R72, R202). -/

namespace Sys2Proof
namespace Machine

/-- Settles O55. -/
theorem oversizeImageIsRefused : Obligations.OversizeImageIsRefused := fun _ h => if_neg (Nat.not_le.mpr h)

/-! Text without white space or separators. -/

theorem splitAtChar_of_not_mem {sep : Char} {t : Text} (h : sep ∉ t) : splitAtChar sep t = [t] := by
  induction t with
  | nil => rfl
  | cons c rest ih =>
    rw [List.mem_cons, not_or] at h
    obtain ⟨hc, hrest⟩ := h
    rw [splitAtChar, if_neg (by simpa using Ne.symm hc), ih hrest]

/-- Text is cut at the first separator. -/
theorem splitAtChar_append_sep {sep : Char} {t : Text} (h : sep ∉ t) (rest : Text) :
    splitAtChar sep (t ++ sep :: rest) = t :: splitAtChar sep rest := by
  induction t with
  | nil => simp [splitAtChar]
  | cons c more ih =>
    rw [List.mem_cons, not_or] at h
    obtain ⟨hc, hmore⟩ := h
    rw [List.cons_append, splitAtChar, if_neg (by simpa using Ne.symm hc), ih hmore]

theorem dropWhile_isBlank_cons {c : Char} {t : Text} (h : isBlank c = false) : (c :: t).dropWhile isBlank = c :: t :=
  List.dropWhile_cons_of_neg (ne_true_of_eq_false h)

/-- Text that begins and ends with no white space is its own trimming. -/
theorem trim_eq_self {c d : Char} {t t' : Text} (hc : isBlank c = false) (hd : isBlank d = false) (h : c :: t = t' ++ [d]) :
    trim (c :: t) = c :: t := by
  rw [trim, dropWhile_isBlank_cons hc, h, List.reverse_append, List.reverse_singleton, List.singleton_append,
    dropWhile_isBlank_cons hd, List.reverse_cons, List.reverse_reverse]

theorem trim_of_no_blank {t : Text} (h : ∀ c ∈ t, isBlank c = false) : trim t = t := by
  cases t with
  | nil => rfl
  | cons c rest =>
    have hne : c :: rest ≠ [] := List.cons_ne_nil c rest
    exact trim_eq_self (h c List.mem_cons_self) (h _ (List.getLast_mem hne)) (List.dropLast_append_getLast hne).symm

/-! The line of a byte (R72). -/

theorem mem_imageLine {b : Byte} {c : Char} (h : c ∈ imageLine b) : c = '0' ∨ c = '1' := by
  obtain ⟨k, _, rfl⟩ := List.mem_map.mp h
  cases b.getLsbD k <;> simp

theorem isBinDigit_of_mem_imageLine {b : Byte} {c : Char} (h : c ∈ imageLine b) : isBinDigit c = true := by
  rcases mem_imageLine h with rfl | rfl <;> rfl

theorem not_mem_imageLine {b : Byte} {c : Char} (h0 : c ≠ '0') (h1 : c ≠ '1') : c ∉ imageLine b := fun h =>
  (mem_imageLine h).elim h0 h1

theorem payload_imageLine (b : Byte) : payload (imageLine b) = imageLine b := by
  have hmark : (imageLine b).takeWhile (fun c => c != '#') = imageLine b := by
    rw [List.takeWhile_eq_self_iff]
    intro c hc
    rcases mem_imageLine hc with rfl | rfl <;> decide
  rw [payload, hmark]
  refine trim_of_no_blank fun c hc => ?_
  rcases mem_imageLine hc with rfl | rfl <;> decide

/-- Reading the `k` lowest bits of a number, highest first, as binary digits gives the number modulo `2 ^ k`. -/
theorem foldl_bits (x k acc : Nat) :
    ((List.range k).reverse.map fun j => if x.testBit j then '1' else '0').foldl
      (fun n c => 2 * n + (if c == '1' then 1 else 0)) acc = acc * 2 ^ k + x % 2 ^ k := by
  induction k generalizing acc with
  | zero => simp [Nat.mod_one]
  | succ k ih =>
    rw [List.range_succ, List.reverse_append, List.reverse_singleton, List.singleton_append, List.map_cons, List.foldl_cons, ih,
      Nat.mod_pow_succ, ← Nat.toNat_testBit, Nat.pow_succ]
    cases x.testBit k <;> simp <;> ring

theorem binValue_imageLine (b : Byte) : binValue (imageLine b) = b.toNat := by
  have h := foldl_bits b.toNat 8 0
  rw [Nat.zero_mul, Nat.zero_add, Nat.mod_eq_of_lt b.isLt] at h
  exact h

theorem payloadByte_imageLine (b : Byte) : payloadByte (imageLine b) = .ok b := by
  have htake : (imageLine b).take 8 = imageLine b := rfl
  have hall : (imageLine b).all isBinDigit = true := List.all_eq_true.mpr fun _ => isBinDigit_of_mem_imageLine
  rw [payloadByte, htake, if_pos ⟨rfl, hall⟩, binValue_imageLine, BitVec.ofNat_toNat, BitVec.setWidth_eq]

/-- A line whose payload begins with a binary digit gives the byte of its payload (R202). -/
theorem lineByte_significant {line : Text} {c : Char} {rest : Text} (h : payload line = c :: rest) (hc : isBinDigit c = true) :
    lineByte line = (payloadByte (c :: rest)).map some := by
  rw [lineByte, h]
  exact if_pos hc

theorem lineByte_imageLine (b : Byte) : lineByte (imageLine b) = .ok (some b) := by
  obtain ⟨c, rest, hline⟩ : ∃ c rest, imageLine b = c :: rest := ⟨_, _, rfl⟩
  have hc : isBinDigit c = true := isBinDigit_of_mem_imageLine (b := b) (by rw [hline]; exact List.mem_cons_self)
  rw [lineByte_significant ((payload_imageLine b).trans hline) hc, ← hline, payloadByte_imageLine]
  rfl

theorem parseLines_cons_ok {line : Text} {rest : List Text} {b : Option Byte} {bs : List Byte} (hline : lineByte line = .ok b)
    (hrest : parseLines rest = .ok bs) : parseLines (line :: rest) = .ok (b.toList ++ bs) := by
  rw [parseLines, hline, hrest]
  rfl

/-- Settles O56: each line is cut off at its line feed and gives its byte. -/
theorem imageTextReadsBack : Obligations.ImageTextReadsBack := by
  intro bs
  induction bs with
  | nil => rfl
  | cons b bs ih =>
    rw [imageText, parseImage, splitAtChar_append_sep (not_mem_imageLine (by decide) (by decide))]
    exact parseLines_cons_ok (lineByte_imageLine b) ih

/-! A malformed line (R203). -/

theorem payloadByte_malformed {p : Text} (h : p.length < 8 ∨ ∃ d ∈ p.take 8, isBinDigit d = false) :
    payloadByte p = .error .malformedInstruction := by
  refine if_neg fun ⟨hlen, hall⟩ => ?_
  rcases h with hshort | ⟨d, hd, hbad⟩
  · rw [List.length_take] at hlen
    omega
  · exact ne_true_of_eq_false hbad (List.all_eq_true.mp hall d hd)

/-- The first line that fails makes the reading of the lines fail. -/
theorem parseLines_append_error {before after : List Text} {line : Text} {bs : List Byte} {e : LoadError}
    (hbefore : parseLines before = .ok bs) (hline : lineByte line = .error e) :
    parseLines (before ++ line :: after) = .error e := by
  induction before generalizing bs with
  | nil => rw [List.nil_append, parseLines, hline, except_bind_error]
  | cons l more ih =>
    rw [parseLines] at hbefore
    cases hl : lineByte l with
    | error e' =>
      rw [hl] at hbefore
      cases hbefore
    | ok b =>
      cases hm : parseLines more with
      | error e' =>
        rw [hl, hm] at hbefore
        cases hbefore
      | ok bs' => rw [List.cons_append, parseLines, hl, except_bind_ok, ih hm, except_bind_error]

/-- Settles O57: the bad line fails the reading of the lines, which comes before the load. -/
theorem malformedLineFailsTheLoad : Obligations.MalformedLineFailsTheLoad := by
  intro before after line bs c rest hbefore hpayload hc hbad
  have hline : lineByte line = .error .malformedInstruction := by
    rw [lineByte_significant hpayload hc, payloadByte_malformed hbad]
    rfl
  have hlines : parseLines (before ++ line :: after) = .error .malformedInstruction := parseLines_append_error hbefore hline
  refine ⟨hlines, fun path text files hfile hsplit => ?_⟩
  have himage : parseImage text = .error .malformedInstruction := by rw [parseImage, hsplit, hlines]
  rw [boot, hfile]
  simp only [himage, except_bind_error]

end Machine
end Sys2Proof
end

section
/-! PROOFS. What the host prints (R209, R210): a byte in decimal, and the report of a run by its status. -/

namespace Sys2Proof
namespace Machine

/-! Decimal digits. -/

theorem digitChar_forall {P : Char → Prop} (h : ∀ d < 10, P (Char.ofNat (48 + d))) (n : Nat) : P (digitChar n) :=
  h (n % 10) (Nat.mod_lt n (by decide))

theorem digitValue_digitChar (n : Nat) : digitValue 10 (digitChar n) = some (n % 10) := by
  have hdigit : ∀ d < 10, digitValue 10 (Char.ofNat (48 + d)) = some d := by decide
  exact hdigit (n % 10) (Nat.mod_lt n (by decide))

theorem digitChar_eq_zero {n : Nat} (h : digitChar n = '0') : n % 10 = 0 := by
  have hdigit : ∀ d < 10, Char.ofNat (48 + d) = '0' → d = 0 := by decide
  exact hdigit (n % 10) (Nat.mod_lt n (by decide)) h

theorem digitsValue_digitChar (acc n : Nat) (rest : Text) :
    digitsValue 10 acc (digitChar n :: rest) = digitsValue 10 (10 * acc + n % 10) rest := by
  rw [digitsValue, digitValue_digitChar]
  rfl

theorem digitsValue_nil (base acc : Nat) : digitsValue base acc [] = some acc := rfl

/-- A byte has one, two or three digits in decimal. -/
theorem decimal_cases (v : Byte) :
    (v.toNat < 10 ∧ decimal v = [digitChar v.toNat]) ∨
      (10 ≤ v.toNat ∧ v.toNat < 100 ∧ decimal v = [digitChar (v.toNat / 10), digitChar v.toNat]) ∨
      (100 ≤ v.toNat ∧ decimal v = [digitChar (v.toNat / 100), digitChar (v.toNat / 10), digitChar v.toNat]) := by
  rw [decimal]
  split_ifs with h1 h2
  · exact .inl ⟨h1, rfl⟩
  · exact .inr (.inl ⟨by omega, h2, rfl⟩)
  · exact .inr (.inr ⟨by omega, rfl⟩)

theorem digitsValue_decimal (v : Byte) : digitsValue 10 0 (decimal v) = some v.toNat := by
  have hv := byte_le v
  rcases decimal_cases v with ⟨h, e⟩ | ⟨_, h, e⟩ | ⟨_, e⟩ <;> rw [e] <;>
    simp only [digitsValue_digitChar, digitsValue_nil, Option.some.injEq] <;> omega

/-- Settles O59: with two or three digits the first one is not 0. -/
theorem outputIsPrintedInDecimal : Obligations.OutputIsPrintedInDecimal := by
  intro v
  refine ⟨digitsValue_decimal v, ?_⟩
  have hv := byte_le v
  rcases decimal_cases v with ⟨h, e⟩ | ⟨hlo, h, e⟩ | ⟨hlo, e⟩ <;> rw [e] <;>
    refine ⟨by simp, by simp, fun h0 => BitVec.eq_of_toNat_eq ?_⟩ <;>
    have hdigit := digitChar_eq_zero (Option.some.inj h0)
  · exact (Nat.mod_eq_of_lt h).symm.trans hdigit
  · omega
  · omega

/-- Settles O60: the status decides the exit value and the diagnostic, and the free exit value of an Error is a successor. -/
theorem reportFollowsStatus : Obligations.ReportFollowsStatus := by
  intro s
  refine ⟨fun h => ?_, fun kind info h => ?_, fun h => ?_⟩
  · rw [report, h]
    rfl
  · refine ⟨_, Nat.succ_ne_zero (Config.faultExit info.code info.pc info.value), ?_⟩
    rw [report, h]
    rfl
  · rw [report, h]
    rfl

end Machine
end Sys2Proof
end

section
/-! PROOFS. Assembly (R70, R71): the text of an instruction is parsed back to it. The text is a mnemonic and at most two
operands, each a word without white space and commas; each word is read back, and so is the row of words. -/

namespace Sys2Proof
namespace Machine

/-! Words: what stands between white space and commas. -/

/-- A word of assembly text: characters that are neither white space nor commas, at least one. -/
def Word (t : Text) : Prop := t ≠ [] ∧ ∀ c ∈ t, isBlank c = false ∧ c ≠ ','

theorem Word.no_blank {t : Text} (h : Word t) : ∀ c ∈ t, isBlank c = false := fun c hc => (h.2 c hc).1

theorem Word.no_comma {t : Text} (h : Word t) : ',' ∉ t := fun hc => (h.2 ',' hc).2 rfl

theorem Word.trim_eq {t : Text} (h : Word t) : trim t = t := trim_of_no_blank h.no_blank

/-- Text that begins and ends with a word is its own trimming. -/
theorem Word.trim_between {t t' : Text} (h : Word t) (h' : Word t') (mid : Text) : trim (t ++ mid ++ t') = t ++ mid ++ t' := by
  obtain ⟨a, rest, rfl⟩ := List.exists_cons_of_ne_nil h.1
  obtain ⟨init, z, rfl⟩ := (List.eq_nil_or_concat t').resolve_left h'.1
  exact trim_eq_self (t' := a :: rest ++ mid ++ init) (h.no_blank a List.mem_cons_self) (h'.no_blank z (by simp)) (by simp)

theorem takeWhile_word {t rest : Text} (h : Word t) :
    (t ++ ' ' :: rest).takeWhile (fun c => !isBlank c) = t := by
  rw [List.takeWhile_append_of_pos fun c hc => by simp [h.no_blank c hc], List.takeWhile_cons_of_neg (by decide), List.append_nil]

theorem dropWhile_word {t rest : Text} (h : Word t) :
    (t ++ ' ' :: rest).dropWhile (fun c => !isBlank c) = ' ' :: rest := by
  rw [List.dropWhile_append_of_pos fun c hc => by simp [h.no_blank c hc], List.dropWhile_cons_of_neg (by decide)]

theorem trim_space_cons (t : Text) : trim (' ' :: t) = trim t := by
  rw [trim, List.dropWhile_cons_of_pos (by decide), trim]

/-! A mnemonic and its operands. -/

theorem parseInstr_mnemonic {m : Text} (hm : Word m) : parseInstr m = asmInstr m [] := by
  have htake : m.takeWhile (fun c => !isBlank c) = m :=
    List.takeWhile_eq_self_iff.mpr fun c hc => by simp [hm.no_blank c hc]
  have hdrop : m.dropWhile (fun c => !isBlank c) = [] :=
    List.dropWhile_eq_nil_iff.mpr fun c hc => by simp [hm.no_blank c hc]
  rw [parseInstr, hm.trim_eq, htake, hdrop]
  rfl

/-- After a mnemonic and a space, text that is its own trimming is cut at its commas. -/
theorem parseInstr_operands {m ops : Text} (hm : Word m) (hne : ops ≠ []) (htrim : trim (m ++ ' ' :: ops) = m ++ ' ' :: ops)
    (hops : trim ops = ops) : parseInstr (m ++ ' ' :: ops) = asmInstr m ((splitAtChar ',' ops).map trim) := by
  rw [parseInstr, htrim, takeWhile_word hm, dropWhile_word hm, trim_space_cons, hops, if_neg hne]

theorem parseInstr_one {m a : Text} (hm : Word m) (ha : Word a) : parseInstr (m ++ ' ' :: a) = asmInstr m [a] := by
  have htrim : trim (m ++ ' ' :: a) = m ++ ' ' :: a := by simpa using hm.trim_between ha [' ']
  rw [parseInstr_operands hm ha.1 htrim ha.trim_eq, splitAtChar_of_not_mem ha.no_comma, List.map_singleton, ha.trim_eq]

theorem parseInstr_two {m a b : Text} (hm : Word m) (ha : Word a) (hb : Word b) :
    parseInstr (m ++ ' ' :: (a ++ ',' :: b)) = asmInstr m [a, b] := by
  have htrim : trim (m ++ ' ' :: (a ++ ',' :: b)) = m ++ ' ' :: (a ++ ',' :: b) := by
    simpa using hm.trim_between hb (' ' :: (a ++ [',']))
  have hops : trim (a ++ ',' :: b) = a ++ ',' :: b := by simpa using ha.trim_between hb [',']
  rw [parseInstr_operands hm (by simp) htrim hops, splitAtChar_append_sep ha.no_comma, splitAtChar_of_not_mem hb.no_comma,
    List.map_cons, List.map_singleton, ha.trim_eq, hb.trim_eq]

/-! The words of an instruction (R71). -/

/-- The operands of an instruction, each as the word that is printed for it. -/
def operandWords : Instr → List Text
  | .hlt | .ret => []
  | .ldi r imm => [regName r, decimal imm]
  | .prn r | .push r | .pop r | .call r | .jmp r | .jeq r | .jne r => [regName r]
  | .add a b | .sub a b | .mul a b | .div a b | .cmp a b => [regName a, regName b]

theorem word_mnemonicText (i : Instr) : Word (mnemonicText i) := by
  cases i <;> simp [Word, mnemonicText, isBlank]

theorem digitChar_in_word : ∀ n, isBlank (digitChar n) = false ∧ digitChar n ≠ ',' :=
  digitChar_forall (P := fun c => isBlank c = false ∧ c ≠ ',') (by decide)

theorem word_regName (r : Byte) : Word (regName r) := by
  have hdigit := digitChar_in_word r.toNat
  refine ⟨List.cons_ne_nil _ _, fun c hc => ?_⟩
  rcases List.mem_pair.mp hc with rfl | rfl
  · decide
  · exact hdigit

/-- What holds of every decimal digit holds of every character of a byte in decimal. -/
theorem decimal_forall {P : Char → Prop} (h : ∀ n, P (digitChar n)) (v : Byte) : ∀ c ∈ decimal v, P c := by
  rcases decimal_cases v with ⟨_, e⟩ | ⟨_, _, e⟩ | ⟨_, e⟩ <;> rw [e] <;> simp [h]

theorem decimal_ne_nil (v : Byte) : decimal v ≠ [] := by
  rcases decimal_cases v with ⟨_, e⟩ | ⟨_, _, e⟩ | ⟨_, e⟩ <;> rw [e] <;> exact List.cons_ne_nil _ _

theorem word_decimal (v : Byte) : Word (decimal v) := ⟨decimal_ne_nil v, decimal_forall digitChar_in_word v⟩

/-- The printed text is the mnemonic and the operand words, and parsing takes it apart again. -/
theorem parseInstr_text (i : Instr) : parseInstr (mnemonicText i ++ operandText i) = asmInstr (mnemonicText i) (operandWords i) := by
  have hm := word_mnemonicText i
  cases i with
  | hlt | ret => exact parseInstr_mnemonic hm
  | ldi r imm => exact parseInstr_two hm (word_regName r) (word_decimal imm)
  | prn r | push r | pop r | call r | jmp r | jeq r | jne r => exact parseInstr_one hm (word_regName r)
  | add a b | sub a b | mul a b | div a b | cmp a b => exact parseInstr_two hm (word_regName a) (word_regName b)

/-! Each word read back. -/

theorem parseReg_regName {r : Byte} (h : namesReg r = true) : parseReg (regName r) = some r := by
  have hreg : ∀ n < 8, parseReg ['r', digitChar n] = some (BitVec.ofNat 8 n) := by decide
  rw [regName, hreg r.toNat (namesReg_iff.mp h), BitVec.ofNat_toNat, BitVec.setWidth_eq]

/-- A number with neither `x` nor `b` in it is decimal. -/
theorem parseNumber_decimal_form {t : Text} (hne : t ≠ []) (hx : 'x' ∉ t) (hb : 'b' ∉ t) : parseNumber t = digitsValue 10 0 t := by
  unfold parseNumber
  split
  · simp at hx
  · simp at hb
  · rfl
  · exact absurd rfl hne

theorem parseImm_decimal (v : Byte) : parseImm (decimal v) = some v := by
  have hbase : ∀ c ∈ decimal v, c ≠ 'x' ∧ c ≠ 'b' := decimal_forall (digitChar_forall (by decide)) v
  have hx : 'x' ∉ decimal v := fun h => (hbase 'x' h).1 rfl
  have hb : 'b' ∉ decimal v := fun h => (hbase 'b' h).2 rfl
  have hnum : parseNumber (decimal v) = some v.toNat := by
    rw [parseNumber_decimal_form (decimal_ne_nil v) hx hb, digitsValue_decimal]
  rw [parseImm, hnum, Option.bind_eq_bind, Option.bind_some, if_pos (byte_le v), BitVec.ofNat_toNat, BitVec.setWidth_eq]

theorem asmR_words (mk : Byte → Instr) {r : Byte} (h : namesReg r = true) : asmR mk [regName r] = some (mk r) := by
  rw [asmR, parseReg_regName h]
  rfl

theorem asmRR_words (mk : Byte → Byte → Instr) {a b : Byte} (h : (namesReg a && namesReg b) = true) :
    asmRR mk [regName a, regName b] = some (mk a b) := by
  obtain ⟨ha, hb⟩ := Bool.and_eq_true_iff.mp h
  rw [asmRR, parseReg_regName ha, parseReg_regName hb]
  rfl

theorem asmRI_words (mk : Byte → Byte → Instr) {r : Byte} (imm : Byte) (h : namesReg r = true) :
    asmRI mk [regName r, decimal imm] = some (mk r imm) := by
  rw [asmRI, parseReg_regName h, parseImm_decimal]
  rfl

/-- The mnemonic of a well-formed instruction chooses its own format, which reads its words. -/
theorem asmInstr_words {i : Instr} (h : i.wellFormed = true) : asmInstr (mnemonicText i) (operandWords i) = some i := by
  cases i with
  | hlt | ret => rfl
  | ldi r imm => exact asmRI_words .ldi imm h
  | prn | push | pop | call | jmp | jeq | jne => exact asmR_words _ h
  | add | sub | mul | div | cmp => exact asmRR_words _ h

/-- Settles O58: the text of a well-formed instruction is taken apart into its words, and these are assembled to it. -/
theorem assemblyReadsBack : Obligations.AssemblyReadsBack := by
  intro i t ht
  rw [instrText] at ht
  split_ifs at ht with hwf
  cases ht
  rw [parseInstr_text, asmInstr_words hwf]

end Machine
end Sys2Proof
end
